-- ==== Sys2Proof/Word.lean ====
section
/-! DEFINITION. The widths of the block's values (00_scope.md R7, R8; 30_encoding.md R61, R63, R66, R67).
Everything computed from them stands in Decode.lean and under Machine/, where a repair may mend it. -/

namespace Sys2Proof

/-- A byte of `BUF`, of a header or of a key (R8). -/
abbrev Byte := BitVec 8

/-- The `ADDR` operand: `ADDR_W = 32` bits, unsigned (R7, R33). A cell of `BUF` is named by the natural
number it stands for, since address sums never wrap (R9). -/
abbrev Addr := BitVec 32

/-- The `LEN` operand: `LEN_W = 32` bits, unsigned (R7). -/
abbrev Len := BitVec 32

/-- The `OPC` operand: `OPC_W = 4` bits (R7, R75). -/
abbrev Opcode := BitVec 4

/-- The 32-bit `KEY` field of a command, or the `KEYOUT` field of a response (R61, R66). -/
abbrev KeyWord := BitVec 32

/-- The canonical packing of a command, `CW[103:0]` (R63). -/
abbrev CommandWord := BitVec 104

/-- The canonical packing of a response, `RW[37:0]` (R67). -/
abbrev ResponseWord := BitVec 38

end Sys2Proof
end

