-- ==== Sys2Proof/Syntax.lean ====
section
/-! DEFINITION. The four operations (30_encoding.md R62), the six pseudo-operations and the host-write line
(R71, R73), and the assembler's lines with their unbounded numbers (R71). -/

namespace Sys2Proof

/-- A masking key: exactly four bytes, `k0` applied to the first payload byte (41_mask_cipher.md R85).
All `256^4` keys are valid. -/
structure Key where
  k0 : Byte
  k1 : Byte
  k2 : Byte
  k3 : Byte
deriving DecidableEq, Repr

/-- The operations of the block (R62). Each operand has the width of its command field (R61, R68), so every
value is one the encoding admits and no instruction is ill-formed (R65). A field an operation does not use
(R64) is no operand of it. -/
inductive Instr where
  /-- `HDR addr, len, opc, mf -> n` (40_header_composer.md R75, R80). -/
  | hdr (addr : Addr) (len : Len) (opc : Opcode) (mf : Bool)
  /-- `KEYGEN addr -> key` (41_mask_cipher.md R86, R87). -/
  | keygen (addr : Addr)
  /-- `MASK.B addr, len, k0:k1:k2:k3` (R91, R92). -/
  | maskB (addr : Addr) (len : Len) (key : Key)
  /-- `MASK.W addr, len, kw` (R93, R94). -/
  | maskW (addr : Addr) (len : Len) (kw : KeyWord)
deriving DecidableEq, Repr

/-- One line of a program as the host means it: an operation, a pseudo-operation (R73) or a host write (R71).
Only the four operations have an encoding; the others expand to them. -/
inductive Operation where
  | command (i : Instr)
  /-- `HDR1 addr, len, mf -> n` (R83). -/
  | hdr1 (addr : Addr) (len : Len) (mf : Bool)
  /-- `UNMASK.B` (R99). -/
  | unmaskB (addr : Addr) (len : Len) (key : Key)
  /-- `UNMASK.W` (R99). -/
  | unmaskW (addr : Addr) (len : Len) (kw : KeyWord)
  /-- `FRAME.PLAIN h, len, opc -> n` (R104). -/
  | framePlain (h : Addr) (len : Len) (opc : Opcode)
  /-- `FRAME.KEY h, p, len, opc, k0:k1:k2:k3 -> n` (R105). -/
  | frameKey (h p : Addr) (len : Len) (opc : Opcode) (key : Key)
  /-- `FRAME.GEN h, p, len, opc -> n, key` (R106). -/
  | frameGen (h p : Addr) (len : Len) (opc : Opcode)
  /-- `host: BUF[a ..] <- bytes`: a host write between commands, not a command (R71, R40). -/
  | hostWrite (a : Nat) (bytes : List Byte)
deriving DecidableEq, Repr

/-- The frame types the source names (R72). -/
inductive OpcodeName where
  | continuation | text | binary | close | ping | pong
deriving DecidableEq, Repr

/-- How an assembler line gives `opc`: a number or one of the names (R71). -/
inductive OpcodeOperand where
  | number (n : Nat)
  | name (x : OpcodeName)
deriving DecidableEq, Repr

/-- An assembler line as written (R71, R73): its operands are numbers that may be out of range, which
WellFormed.lean checks. -/
inductive Line where
  | hdr (addr len : Nat) (opc : OpcodeOperand) (mf : Nat)
  | keygen (addr : Nat)
  | maskB (addr len k0 k1 k2 k3 : Nat)
  | maskW (addr len kw : Nat)
  | hdr1 (addr len mf : Nat)
  | unmaskB (addr len k0 k1 k2 k3 : Nat)
  | unmaskW (addr len kw : Nat)
  | framePlain (h len : Nat) (opc : OpcodeOperand)
  | frameKey (h p len : Nat) (opc : OpcodeOperand) (k0 k1 k2 k3 : Nat)
  | frameGen (h p len : Nat) (opc : OpcodeOperand)
  | hostWrite (a : Nat) (bytes : List Nat)
deriving DecidableEq, Repr

end Sys2Proof
end

