-- ==== Sys2Proof/Config.lean ====
section
/-! DEFINITION. What an implementation fixes (00_scope.md R7, the two rows marked OPEN) and what the spec
leaves free (93_implementation_defined.md U2, U3, U4). -/

namespace Sys2Proof

/-- `KEY_WORD_BYTE_ORDER`: which byte of a 32-bit key word is key byte 0 (R7, R95). -/
inductive ByteOrder where
  | little
  | big
deriving DecidableEq, Repr

/-- The parameters of an instance of the block: fixed, and never written by any command (10_state.md R25).
The spec leaves both open, so every statement holds for every value of them; the state carries them. -/
structure Config where
  /-- `BUF_SIZE`, the number of bytes in `BUF` (R7, R32). -/
  bufSize : Nat
  /-- `KEY_WORD_BYTE_ORDER` (R95). -/
  keyWordByteOrder : ByteOrder
deriving DecidableEq, Repr

/-- `0 <= BUF_SIZE <= 2^32` (R7, R32). -/
abbrev Config.Wf (c : Config) : Prop := c.bufSize ≤ 2 ^ 32

/-- FREE VALUE. What a byte of `BUF` holds that nothing has written since the reset numbered `epoch`: no
known value (10_state.md R30, 93_implementation_defined.md U4; log 3). -/
opaque Config.unwrittenByte (epoch addr : Nat) : Byte

/-- FREE VALUE. What the random source answers to its request number `n` when the state names no answer:
four bytes of any value, or none (10_state.md R24; U2, U3; log 4). -/
opaque Config.rsAnswer (n : Nat) : Option Key

end Sys2Proof
end

