-- ==== Sys2Proof/Machine/State.lean ====
section
/-! DEFINITION. The state: the buffer memory `BUF` (10_state.md R16, R17), the two ports (R29), the instance's
parameters (R25), and the two agents outside the block, the random source (R24) and the host (R23), as plain
data. -/

namespace Sys2Proof.Machine

/-- The buffer memory (R17, R32): the bytes written since reset, by address, strictly rising. An address that
is not listed holds no known value (R30), which is what `Memory.wf` relies on: no listed byte equals it
(log 3). -/
structure Memory where
  cells : List Host.Cell
  /-- The model's own counter of reset pulses; it picks the free contents of unlisted addresses. -/
  epoch : Nat
deriving DecidableEq, Repr

/-- The canonical form: addresses strictly rising. -/
abbrev Memory.wf (m : Memory) : Prop := m.cells.Pairwise (fun c d => c.1 < d.1)

/-- The `STATUS` of a response (30_encoding.md R66, 60_exceptions.md R111); code 3 is never produced. -/
inductive Status where
  | ok
  | invalidArgument
  | randomSourceUnavailable
deriving DecidableEq, Repr

/-- The two faults a command raises (R111). -/
inductive CommandFault where
  /-- The command's region does not fit in `BUF`; raised by every operation (R113). -/
  | invalidArgument
  /-- The random source answered `none`; raised by `KEYGEN` only (R114). -/
  | randomSourceUnavailable
deriving DecidableEq, Repr

/-- A response: the record of three fields (R66). -/
structure Response where
  status : Status
  n : BitVec 4
  keyout : KeyWord
deriving DecidableEq, Repr

/-- The random source `RS` (10_state.md R24), an agent outside the block: the answers it will give, next one
first, and how many it has given. When no answer is named the next one is the free `Config.rsAnswer` (log 4). -/
structure RandomSource where
  pending : List (Option Key)
  asked : Nat
deriving DecidableEq, Repr

/-- A move of the host between commands (R23; 20_memory.md R40; 70_reset_and_hazards.md R129). -/
inductive HostMove where
  /-- Write bytes to consecutive addresses of `BUF`. -/
  | write (a : Nat) (bytes : List Byte)
  /-- Put a command on the command port. -/
  | issue (cw : CommandWord)
  /-- Assert reset. -/
  | reset
deriving DecidableEq, Repr

end Sys2Proof.Machine

namespace Sys2Proof.Machine

/-- Everything the spec gives the machine, and the agents around it. -/
structure State where
  /-- `BUF_SIZE` and `KEY_WORD_BYTE_ORDER`: parameters of the instance (R25). -/
  cfg : Config
  /-- `BUF`, the whole architectural state (R16, R17). -/
  buf : Memory
  /-- The command port: idle, or the command in progress (R29, R30). -/
  command : Option CommandWord
  /-- The response port: the outstanding response, if any (R29, R30). -/
  response : Option Response
  /-- The random source (R24). -/
  rs : RandomSource
  /-- The moves the host will make, next one first (R23). -/
  host : List HostMove
  /-- The responses the host has received, in order (70_reset_and_hazards.md R134). -/
  received : List Response
deriving DecidableEq, Repr

/-- Why the machine stops. No command of this hardware stops it: "every command either completes as its rule
says or raises one of the two faults" in its response (60_exceptions.md R112). -/
inductive Fault where
  /-- Raised by the host's write move when it ends above `BUF_SIZE`: when an address of it does not exist
  (20_memory.md R32, log 9, log 20), and also for a write of no bytes at an address above `BUF_SIZE`, on which
  the spec is silent (DESIGN CHOICE, log 20). Safe: the model stops where nothing is specified. -/
  | hostWriteOutsideBuf
deriving DecidableEq, Repr

/-- Why an instruction has no meaning. -/
inductive Refusal where
  /-- Reserved for an arm of exec that has no meaning yet; no arm is left so. Safe. -/
  | notModelled (mnemonic : String)
deriving DecidableEq, Repr

/-- The machine right after reset, as an instance with parameters `c` (R30, R129): ports idle, nothing of
`BUF` known, nothing known of the random source, and a host that has not moved. -/
def State.resetWith (c : Config) : State where
  cfg := c
  buf := { cells := [], epoch := 0 }
  command := none
  response := none
  rs := { pending := [], asked := 0 }
  host := []
  received := []

/-- Right after reset. The spec leaves both parameters open; `2^32` and `little` are the model's DESIGN CHOICE
(log 1, log 2) for the one state asked for here, and no statement rests on them. -/
def State.reset : State := State.resetWith { bufSize := 4294967296, keyWordByteOrder := .little }

end Sys2Proof.Machine
end

