-- ==== Sys2Proof/Machine/Flags.lean ====
section
/-! DEFINITION. The block has no flags and no condition codes (10_state.md R20): the outcome of a command is
the `STATUS` of its own response. This file holds the status codes (60_exceptions.md R111) and the packing of
a response (30_encoding.md R67). -/

namespace Sys2Proof.Machine

/-- The `STATUS` codes (R111). -/
def Status.code : Status → BitVec 2
  | .ok => 0#2
  | .invalidArgument => 1#2
  | .randomSourceUnavailable => 2#2

/-- The status a code stands for; code 3 is never produced and stands for none (R66, R111). -/
def Status.ofCode (c : BitVec 2) : Option Status :=
  if c = 0#2 then some .ok
  else if c = 1#2 then some .invalidArgument
  else if c = 2#2 then some .randomSourceUnavailable
  else none

/-- The status a fault reports (R111). -/
def CommandFault.status : CommandFault → Status
  | .invalidArgument => .invalidArgument
  | .randomSourceUnavailable => .randomSourceUnavailable

/-- `RW[1:0] = STATUS`, `RW[5:2] = N`, `RW[37:6] = KEYOUT` (R67). -/
def Response.toWord (r : Response) : ResponseWord :=
  r.status.code.setWidth 38 ||| r.n.setWidth 38 <<< 2 ||| r.keyout.setWidth 38 <<< 6

/-- The response a response word packs, none for status code 3 (R67, log 21). -/
def Response.ofWord (w : ResponseWord) : Option Response :=
  (Status.ofCode (w.extractLsb' 0 2)).map fun st => ⟨st, w.extractLsb' 2 4, w.extractLsb' 6 32⟩

end Sys2Proof.Machine
end

