-- ==== Sys2Proof/WellFormed.lean ====
section
/-! DEFINITION. Which assembler lines are well formed: every number fits its operand (30_encoding.md R71,
R68). An `Instr` needs no check: its operands have the widths of the command's fields, and "no combination of
operand values is reserved" (R65). -/

namespace Sys2Proof

/-- "`addr`, `len`, `kw` are numbers 0 .. 2^32 - 1" (R71). -/
def fitsWord (n : Nat) : Bool := decide (n < 2 ^ 32)

/-- "four bytes in hexadecimal" (R71). -/
def fitsByte (n : Nat) : Bool := decide (n < 2 ^ 8)

/-- "`mf` is 0 or 1" (R71). -/
def fitsFlag (n : Nat) : Bool := decide (n < 2)

/-- "`opc` is a number 0 .. 15 or one of the names of rule R72" (R71). -/
def OpcodeOperand.wellFormed : OpcodeOperand → Bool
  | .number n => decide (n < 2 ^ 4)
  | .name _ => true

def fitsKey (k0 k1 k2 k3 : Nat) : Bool := fitsByte k0 && fitsByte k1 && fitsByte k2 && fitsByte k3

/-- Every operand of the line is in its range (R71). A host write has any address (whether it lies in `BUF`
is checked when the host makes it) and bytes. -/
def Line.wellFormed : Line → Bool
  | .hdr addr len opc mf => fitsWord addr && fitsWord len && opc.wellFormed && fitsFlag mf
  | .keygen addr => fitsWord addr
  | .maskB addr len k0 k1 k2 k3 => fitsWord addr && fitsWord len && fitsKey k0 k1 k2 k3
  | .maskW addr len kw => fitsWord addr && fitsWord len && fitsWord kw
  | .hdr1 addr len mf => fitsWord addr && fitsWord len && fitsFlag mf
  | .unmaskB addr len k0 k1 k2 k3 => fitsWord addr && fitsWord len && fitsKey k0 k1 k2 k3
  | .unmaskW addr len kw => fitsWord addr && fitsWord len && fitsWord kw
  | .framePlain h len opc => fitsWord h && fitsWord len && opc.wellFormed
  | .frameKey h p len opc k0 k1 k2 k3 =>
    fitsWord h && fitsWord p && fitsWord len && opc.wellFormed && fitsKey k0 k1 k2 k3
  | .frameGen h p len opc => fitsWord h && fitsWord p && fitsWord len && opc.wellFormed
  | .hostWrite _ bytes => bytes.all fitsByte

end Sys2Proof
end

