-- ==== Sys2Proof/Decode.lean ====
section
/-! DEFINITION. The command word and its six fields (30_encoding.md R61 to R70), the decoder, the encoder
written from the same table, and the assembler of R71. -/

namespace Sys2Proof

/-- A command: the record of six fields (R61). -/
structure Command where
  cmd : BitVec 2
  mf : Bool
  opc : Opcode
  addr : Addr
  len : Len
  key : KeyWord
deriving DecidableEq, Repr

/-- The fields of a command word (R63): `CMD` 1:0, `MF` 2, `OPC` 6:3, bit 7 unused, `ADDR` 39:8, `LEN` 71:40,
`KEY` 103:72. -/
def Command.ofWord (cw : CommandWord) : Command where
  cmd := cw.extractLsb' 0 2
  mf := cw.getLsbD 2
  opc := cw.extractLsb' 3 4
  addr := cw.extractLsb' 8 32
  len := cw.extractLsb' 40 32
  key := cw.extractLsb' 72 32

/-- The canonical packing of a command (R63), the unused bit 7 as 0. -/
def Command.toWord (c : Command) : CommandWord :=
  c.cmd.setWidth 104 ||| (BitVec.ofBool c.mf).setWidth 104 <<< 2 ||| c.opc.setWidth 104 <<< 3 |||
    c.addr.setWidth 104 <<< 8 ||| c.len.setWidth 104 <<< 40 ||| c.key.setWidth 104 <<< 72

/-- The key operand of `MASK.B`: `K[j] = KEY[8j+7 : 8j]`, a fixed layout (R69). -/
def Key.ofField (w : KeyWord) : Key where
  k0 := w.extractLsb' 0 8
  k1 := w.extractLsb' 8 8
  k2 := w.extractLsb' 16 8
  k3 := w.extractLsb' 24 8

/-- `KEY = k0 | k1 << 8 | k2 << 16 | k3 << 24`: byte `j` in bits `8j+7 : 8j` (R66, R69, R71). -/
def Key.toField (k : Key) : KeyWord :=
  k.k0.setWidth 32 ||| k.k1.setWidth 32 <<< 8 ||| k.k2.setWidth 32 <<< 16 ||| k.k3.setWidth 32 <<< 24

/-- The operation a command selects (R62): `CMD` alone decides, and all four values are operations (R65). -/
def decodeCommand (c : Command) : Instr :=
  if c.cmd = 0b00#2 then .hdr c.addr c.len c.opc c.mf
  else if c.cmd = 0b01#2 then .keygen c.addr
  else if c.cmd = 0b10#2 then .maskB c.addr c.len (Key.ofField c.key)
  else .maskW c.addr c.len c.key

/-- "Every 104-bit value is a valid command" (R63). -/
def decodeWord (cw : CommandWord) : Instr := decodeCommand (Command.ofWord cw)

/-- Why bytes or a line are no command. -/
inductive DecodeError where
  /-- Fewer than 13 bytes: "Every command has the one fixed format" (R74). -/
  | truncated
  /-- More than 13 bytes. -/
  | overlong
  /-- A line with an operand outside its range (R71). -/
  | operandOutOfRange
deriving DecidableEq, Repr

/-- The command word whose bits 7:0 are the first byte, bits 15:8 the second, and so on (log 8). -/
def wordOfBytes : List Byte → CommandWord
  | [] => 0#104
  | b :: bs => b.setWidth 104 ||| wordOfBytes bs <<< 8

/-- A command from its bytes, the byte with bits 7:0 first (log 8): exactly 13 bytes (R74). -/
def decode (bytes : List Byte) : Except DecodeError Instr :=
  if bytes.length < 13 then .error .truncated
  else if bytes.length = 13 then .ok (decodeWord (wordOfBytes bytes))
  else .error .overlong

/-- The bytes of a command word, bits 7:0 first (log 8). -/
def bytesOfWord (cw : CommandWord) : List Byte :=
  [cw.extractLsb' 0 8, cw.extractLsb' 8 8, cw.extractLsb' 16 8, cw.extractLsb' 24 8, cw.extractLsb' 32 8,
   cw.extractLsb' 40 8, cw.extractLsb' 48 8, cw.extractLsb' 56 8, cw.extractLsb' 64 8, cw.extractLsb' 72 8,
   cw.extractLsb' 80 8, cw.extractLsb' 88 8, cw.extractLsb' 96 8]

/-- The select code of an operation (R62). -/
def Instr.selectCode : Instr → BitVec 2
  | .hdr _ _ _ _ => 0b00#2
  | .keygen _ => 0b01#2
  | .maskB _ _ _ => 0b10#2
  | .maskW _ _ _ => 0b11#2

/-- The command that asks for an operation, its ignored fields 0 (R62, R64). -/
def encodeCommand : Instr → Command
  | .hdr addr len opc mf => ⟨0b00#2, mf, opc, addr, len, 0#32⟩
  | .keygen addr => ⟨0b01#2, false, 0#4, addr, 0#32, 0#32⟩
  | .maskB addr len key => ⟨0b10#2, false, 0#4, addr, len, key.toField⟩
  | .maskW addr len kw => ⟨0b11#2, false, 0#4, addr, len, kw⟩

def encodeWord (i : Instr) : CommandWord := (encodeCommand i).toWord

/-- The 13 bytes of an operation's command (R63, log 8). -/
def encode (i : Instr) : List Byte := bytesOfWord (encodeWord i)

/-- What the decoder reads from the command whose low `nbits` bits are those of `w` and whose other bits are
0; no command is longer than 104 bits. -/
def decodeTableWord (nbits w : Nat) : Option Instr :=
  if nbits ≤ 104 then
    match decode (bytesOfWord (BitVec.ofNat 104 (w % 2 ^ nbits))) with
    | .ok i => some i
    | .error _ => none
  else none

/-- The numbers of the opcode names (R72; the spec gives them from general knowledge, log 15). -/
def OpcodeName.code : OpcodeName → Opcode
  | .continuation => 0x0#4
  | .text => 0x1#4
  | .binary => 0x2#4
  | .close => 0x8#4
  | .ping => 0x9#4
  | .pong => 0xA#4

def OpcodeOperand.code : OpcodeOperand → Opcode
  | .number n => BitVec.ofNat 4 n
  | .name x => x.code

def Key.ofNats (k0 k1 k2 k3 : Nat) : Key :=
  ⟨BitVec.ofNat 8 k0, BitVec.ofNat 8 k1, BitVec.ofNat 8 k2, BitVec.ofNat 8 k3⟩

/-- The operation a well-formed line stands for (R71, R73). -/
def Line.toOperation : Line → Operation
  | .hdr addr len opc mf => .command (.hdr (BitVec.ofNat 32 addr) (BitVec.ofNat 32 len) opc.code (mf == 1))
  | .keygen addr => .command (.keygen (BitVec.ofNat 32 addr))
  | .maskB addr len k0 k1 k2 k3 =>
    .command (.maskB (BitVec.ofNat 32 addr) (BitVec.ofNat 32 len) (Key.ofNats k0 k1 k2 k3))
  | .maskW addr len kw => .command (.maskW (BitVec.ofNat 32 addr) (BitVec.ofNat 32 len) (BitVec.ofNat 32 kw))
  | .hdr1 addr len mf => .hdr1 (BitVec.ofNat 32 addr) (BitVec.ofNat 32 len) (mf == 1)
  | .unmaskB addr len k0 k1 k2 k3 =>
    .unmaskB (BitVec.ofNat 32 addr) (BitVec.ofNat 32 len) (Key.ofNats k0 k1 k2 k3)
  | .unmaskW addr len kw => .unmaskW (BitVec.ofNat 32 addr) (BitVec.ofNat 32 len) (BitVec.ofNat 32 kw)
  | .framePlain h len opc => .framePlain (BitVec.ofNat 32 h) (BitVec.ofNat 32 len) opc.code
  | .frameKey h p len opc k0 k1 k2 k3 =>
    .frameKey (BitVec.ofNat 32 h) (BitVec.ofNat 32 p) (BitVec.ofNat 32 len) opc.code (Key.ofNats k0 k1 k2 k3)
  | .frameGen h p len opc => .frameGen (BitVec.ofNat 32 h) (BitVec.ofNat 32 p) (BitVec.ofNat 32 len) opc.code
  | .hostWrite a bytes => .hostWrite a (bytes.map (BitVec.ofNat 8))

/-- Assemble a line, refusing an operand outside its range (R71). -/
def assemble (l : Line) : Except DecodeError Operation :=
  if l.wellFormed then .ok l.toOperation else .error .operandOutOfRange

end Sys2Proof
end

