-- ==== Sys2Proof/Machine/Operands.lean ====
section
/-! DEFINITION. The pure functions of the operands: length classification and header bytes
(40_header_composer.md R76 to R79), key bytes (41_mask_cipher.md R90, R95), byte order (00_scope.md R10), the
frame (42_frame_sequence.md R102). -/

namespace Sys2Proof.Machine

/-- `T16`: the first length that needs the 16-bit form (R7). -/
def t16 : Nat := 126

/-- `T64`: the first length that needs the 64-bit form (R7). -/
def t64 : Nat := 65536

/-- `KEY_BYTES` (R7). -/
def keyLen : Nat := 4

/-- `OPC_DEFAULT` (R7, R83). -/
def opcDefault : Opcode := 0x1#4

/-- `BE16`: most significant byte first (R10). -/
def be16 (v : BitVec 16) : List Byte := [v.extractLsb' 8 8, v.extractLsb' 0 8]

/-- `BE64`: most significant byte first (R10). -/
def be64 (v : BitVec 64) : List Byte :=
  [v.extractLsb' 56 8, v.extractLsb' 48 8, v.extractLsb' 40 8, v.extractLsb' 32 8,
   v.extractLsb' 24 8, v.extractLsb' 16 8, v.extractLsb' 8 8, v.extractLsb' 0 8]

/-- `HdrLen(L)` (R76): both boundaries are strict. -/
def hdrLen (len : Len) : Nat :=
  if len.toNat < t16 then 2 else if len.toNat < t64 then 4 else 10

/-- `Ind(L)`, the 7-bit length indicator (R76). -/
def indicator (len : Len) : Byte :=
  if len.toNat < t16 then len.setWidth 8 else if len.toNat < t64 then 126#8 else 127#8

/-- `B0(OPC)`: FIN 1, RSV 000, the opcode in bits 3:0 (R77). -/
def hdrByte0 (opc : Opcode) : Byte := 0x80#8 ||| opc.setWidth 8

/-- `B1(L, MF)`: the mask flag in bit 7, the indicator in bits 6:0 (R78). -/
def hdrByte1 (len : Len) (mf : Bool) : Byte := (if mf then 0x80#8 else 0x00#8) ||| indicator len

/-- `HdrBytes(L, OPC, MF)` (R79): formats `H2`, `H4`, `H10`. -/
def hdrBytes (len : Len) (opc : Opcode) (mf : Bool) : List Byte :=
  if len.toNat < t16 then [hdrByte0 opc, hdrByte1 len mf]
  else if len.toNat < t64 then [hdrByte0 opc, hdrByte1 len mf] ++ be16 (len.setWidth 16)
  else [hdrByte0 opc, hdrByte1 len mf] ++ be64 (len.setWidth 64)

end Sys2Proof.Machine

namespace Sys2Proof

/-- The four bytes of a key, `K[0]` first. -/
def Key.bytes (k : Key) : List Byte := [k.k0, k.k1, k.k2, k.k3]

/-- `K[i mod 4]` (R90). -/
def Key.byte (k : Key) (i : Nat) : Byte :=
  match i % 4 with
  | 0 => k.k0
  | 1 => k.k1
  | 2 => k.k2
  | _ => k.k3

/-- `rot(K, r)[j] = K[(j + r) mod 4]` (R98, R101). -/
def Key.rot (k : Key) (r : Nat) : Key := ⟨k.byte r, k.byte (r + 1), k.byte (r + 2), k.byte (r + 3)⟩

/-- `K ^ K'`, byte by byte (R101). -/
def Key.xor (k k' : Key) : Key := ⟨k.k0 ^^^ k'.k0, k.k1 ^^^ k'.k1, k.k2 ^^^ k'.k2, k.k3 ^^^ k'.k3⟩

end Sys2Proof

namespace Sys2Proof.Machine

/-- `KeyBytes(KW)`: the bytes the word would occupy in memory, lowest address first (R95). -/
def keyBytes : ByteOrder → KeyWord → Key
  | .little, kw => ⟨kw.extractLsb' 0 8, kw.extractLsb' 8 8, kw.extractLsb' 16 8, kw.extractLsb' 24 8⟩
  | .big, kw => ⟨kw.extractLsb' 24 8, kw.extractLsb' 16 8, kw.extractLsb' 8 8, kw.extractLsb' 0 8⟩

/-- `Xor4`, its index counted on from `i`. -/
def xor4From (k : Key) : Nat → List Byte → List Byte
  | _, [] => []
  | i, b :: bs => (b ^^^ k.byte i) :: xor4From k (i + 1) bs

/-- `Xor4(s, K)[i] = s[i] ^ K[i mod 4]` (R90). -/
def xor4 (s : List Byte) (k : Key) : List Byte := xor4From k 0 s

/-- The number a big-endian byte sequence stands for (R10). -/
def beNat (s : List Byte) : Nat := s.foldl (fun n b => 256 * n + b.toNat) 0

/-- The payload length a header declares, from its bytes alone (30_encoding.md R58, R84): the indicator in
byte 1 if that is at most 125, the 16-bit number after it if it is 126, the 64-bit number if it is 127. The
block itself never reads a header (R58). -/
def declaredLen : List Byte → Nat
  | _ :: b1 :: ext =>
    if (b1.extractLsb' 0 7).toNat ≤ 125 then (b1.extractLsb' 0 7).toNat
    else if (b1.extractLsb' 0 7).toNat = 126 then beNat (ext.take 2)
    else beNat (ext.take 8)
  | _ => 0

/-- `Frame(P, OPC, K)` (R102): header, then the key if masked, then the payload, masked if masked. -/
def frame (p : List Byte) (opc : Opcode) : Option Key → List Byte
  | none => hdrBytes (BitVec.ofNat 32 p.length) opc false ++ p
  | some k => hdrBytes (BitVec.ofNat 32 p.length) opc true ++ k.bytes ++ xor4 p k

end Sys2Proof.Machine

namespace Sys2Proof

/-- The start address of an operation's region (20_memory.md R33). -/
def Instr.start : Instr → Addr
  | .hdr addr _ _ _ => addr
  | .keygen addr => addr
  | .maskB addr _ _ => addr
  | .maskW addr _ _ => addr

/-- The byte count of an operation's region: `HdrLen(LEN)`, 4, or `LEN` (R33). -/
def Instr.regionLen : Instr → Nat
  | .hdr _ len _ _ => Machine.hdrLen len
  | .keygen _ => Machine.keyLen
  | .maskB _ len _ => len.toNat
  | .maskW _ len _ => len.toNat

end Sys2Proof
end

