-- ==== Sys2Proof/Machine/Ops.lean ====
section
/-! DEFINITION. The named operations the meanings share: reads and writes of `BUF` (00_scope.md R11), the
bounds check (20_memory.md R35), ending a command with a response or with a fault (R12, 60_exceptions.md R117),
asking the random source (10_state.md R24), and what the host does between commands (20_memory.md R40,
70_reset_and_hazards.md R129). -/

namespace Sys2Proof.Machine

/-! ### `BUF` -/

/-- The listed byte at an address. -/
def lookupCell : List Host.Cell → Nat → Option Byte
  | [], _ => none
  | (b, v) :: cs, a => if b = a then some v else lookupCell cs a

/-- Put a byte at an address, keeping the addresses strictly rising. -/
def insertCell : List Host.Cell → Nat → Byte → List Host.Cell
  | [], a, v => [(a, v)]
  | (b, w) :: cs, a, v =>
    if b < a then (b, w) :: insertCell cs a v
    else if b = a then (a, v) :: cs
    else (a, v) :: (b, w) :: cs

/-- What is known of the byte at `a`: a value only if something has written it since reset (R30). -/
def Memory.known (m : Memory) (a : Nat) : Option Byte := lookupCell m.cells a

/-- `MemRead(a, 1)` (R11). A byte nothing has written since reset reads as a free value (U4, log 3): "the
operations themselves are total on any contents". -/
def Memory.read (m : Memory) (a : Nat) : Byte := (m.known a).getD (Config.unwrittenByte m.epoch a)

/-- `MemWrite(a, 1, v)` (R11). -/
def Memory.write (m : Memory) (a : Nat) (v : Byte) : Memory := { m with cells := insertCell m.cells a v }

/-- `MemWriteSeq(a, s)`: byte `j` of `s` at `a + j` (R11). -/
def Memory.writeSeq (m : Memory) (a : Nat) : List Byte → Memory
  | [] => m
  | b :: bs => (m.write a b).writeSeq (a + 1) bs

/-- The bytes `BUF[a .. a + n - 1]`, the empty sequence for `n = 0` (R10). -/
def Memory.readSeq (m : Memory) (a : Nat) : Nat → List Byte
  | 0 => []
  | n + 1 => m.read a :: m.readSeq (a + 1) n

/-- `BUF[a + i] <- BUF[a + i] ^ K[i mod 4]` for every `i < n` (R90, R92): no iteration for `n = 0` (R13). -/
def Memory.xorRegion (m : Memory) (a : Nat) (k : Key) : Nat → Memory
  | 0 => m
  | n + 1 =>
    let m' := m.xorRegion a k n
    m'.write (a + n) (m'.read (a + n) ^^^ k.byte n)

/-- A memory of which nothing is known: what a reset leaves (R30, R130, log 10). -/
def Memory.forget (m : Memory) : Memory := { cells := [], epoch := m.epoch + 1 }

/-! ### Ending a command -/

def State.withBuf (s : State) (m : Memory) : State := { s with buf := m }

/-- The bounds check of R35: the region of `n` bytes at `addr` lies in `BUF`; the sum is a natural number and
does not wrap (R9). -/
def State.fits (s : State) (addr : Addr) (n : Nat) : Bool := decide (addr.toNat + n ≤ s.cfg.bufSize)

/-- `respond(n, k)`: the command ends, its response is `OK` (R12, R66). -/
def State.respond (s : State) (n : BitVec 4) (keyout : KeyWord) : State :=
  { s with command := none, response := some ⟨.ok, n, keyout⟩ }

/-- `raise f`: TAKING A FAULT. The command ends, the fault's code is in its response, and nothing else
happens: no vector, no saved state, no change of mode (R12, R117, R119). There is no return from it (R120). -/
def State.raise (s : State) (f : CommandFault) : State :=
  { s with command := none, response := some ⟨f.status, 0#4, 0#32⟩ }

/-- The uniform check every operation makes before it reads or writes anything (R35): the effect `t` if the
region fits, else `InvalidArgument` with nothing changed (R116). -/
def State.checked (s : State) (addr : Addr) (n : Nat) (t : State) : State :=
  if s.fits addr n then t else s.raise .invalidArgument

/-! ### The random source -/

/-- The answer to the next request: four bytes or `none`, under no law (R24, log 4). -/
def RandomSource.answer (rs : RandomSource) : Option Key :=
  match rs.pending with
  | a :: _ => a
  | [] => Config.rsAnswer rs.asked

/-- The source after it has answered one request. -/
def RandomSource.advance (rs : RandomSource) : RandomSource :=
  { pending := rs.pending.tail, asked := rs.asked + 1 }

/-- The state after the block has asked the random source once. -/
def State.askRandom (s : State) : State := { s with rs := s.rs.advance }

/-! ### Between commands -/

/-- The host takes the outstanding response, if there is one (R22, R134). -/
def State.takeResponse (s : State) : State :=
  match s.response with
  | some r => { s with response := none, received := s.received ++ [r] }
  | none => s

/-- The host puts a command on the command port (R29). -/
def State.issue (s : State) (cw : CommandWord) : State := { s with command := some cw }

/-- Reset: ports idle; `BUF` is not written, but nothing is known of it any more (R129, R130, log 10). -/
def State.pulseReset (s : State) : State :=
  { s with buf := s.buf.forget, command := none, response := none }

/-- The host writes bytes of `BUF` between commands (20_memory.md R40). No address outside `BUF` exists (R32),
so a write that leaves it stops the model (log 9), whole or not at all (log 20). DESIGN CHOICE (log 20): the
test is the block's own, `a + n > BUF_SIZE`, for a write of no bytes too, where the spec (R40,
70_reset_and_hazards.md R134) is silent: at an address up to `BUF_SIZE` it changes nothing, above it it stops
the model although it writes no address. -/
def hostWrite (a : Nat) (bytes : List Byte) (s : State) : Host.Outcome State Fault Refusal :=
  if a + bytes.length ≤ s.cfg.bufSize then .next (s.withBuf (s.buf.writeSeq a bytes))
  else .fault .hostWriteOutsideBuf

end Sys2Proof.Machine
end

