-- ==== Sys2Proof/Machine/HeaderComposer.lean ====
section
/-! DEFINITION. Unit HC, the header composer (40_header_composer.md). -/

namespace Sys2Proof.Machine

/-- `HDR addr, len, opc, mf -> n` (R80). -/
def execHdr (addr : Addr) (len : Len) (opc : Opcode) (mf : Bool) (s : State) :
    Host.Outcome State Fault Refusal :=
  .next (s.checked addr (hdrLen len)
    ((s.withBuf (s.buf.writeSeq addr.toNat (hdrBytes len opc mf))).respond (BitVec.ofNat 4 (hdrLen len)) 0#32))

end Sys2Proof.Machine
end

