-- ==== Sys2Proof/Machine/MaskCipher.lean ====
section
/-! DEFINITION. Unit MC, the mask cipher (41_mask_cipher.md). -/

namespace Sys2Proof.Machine

/-- What `KEYGEN` does once its region fits: it asks the random source, and writes the key it gets, `K[0]`
lowest, or raises `RandomSourceUnavailable` with nothing written (R87, R114). -/
def State.storeDrawnKey (s : State) (addr : Addr) : State :=
  match s.rs.answer with
  | some k => (s.askRandom.withBuf (s.buf.writeSeq addr.toNat k.bytes)).respond 0#4 k.toField
  | none => s.askRandom.raise .randomSourceUnavailable

/-- `KEYGEN addr -> key` (R87): the bounds check comes first, and the source is not asked when it fails
(60_exceptions.md R118). -/
def execKeygen (addr : Addr) (s : State) : Host.Outcome State Fault Refusal :=
  .next (s.checked addr keyLen (s.storeDrawnKey addr))

/-- What both `MASK` operations do with their four key bytes (R92, R94). -/
def State.mask (s : State) (addr : Addr) (len : Len) (k : Key) : State :=
  s.checked addr len.toNat ((s.withBuf (s.buf.xorRegion addr.toNat k len.toNat)).respond 0#4 0#32)

/-- `MASK.B addr, len, k0:k1:k2:k3` (R92). -/
def execMaskB (addr : Addr) (len : Len) (key : Key) (s : State) : Host.Outcome State Fault Refusal :=
  .next (s.mask addr len key)

/-- `MASK.W addr, len, kw` (R94): the key bytes are those of the word under `KEY_WORD_BYTE_ORDER` (R95). -/
def execMaskW (addr : Addr) (len : Len) (kw : KeyWord) (s : State) : Host.Outcome State Fault Refusal :=
  .next (s.mask addr len (keyBytes s.cfg.keyWordByteOrder kw))

end Sys2Proof.Machine
end

