-- ==== Sys2Proof/Machine/Dispatch.lean ====
section
/-! DEFINITION. One arm per operation of 30_encoding.md R62. -/

namespace Sys2Proof.Machine

def exec (i : Instr) (s : State) : Host.Outcome State Fault Refusal :=
  match i with
  | .hdr addr len opc mf => Sys2Proof.Machine.execHdr addr len opc mf s
  | .keygen addr => Sys2Proof.Machine.execKeygen addr s
  | .maskB addr len key => Sys2Proof.Machine.execMaskB addr len key s
  | .maskW addr len kw => Sys2Proof.Machine.execMaskW addr len kw s

end Sys2Proof.Machine
end

