-- ==== Sys2Proof/Machine/HostTurn.lean ====
section
/-! DEFINITION. What happens when no command is in progress: the host takes the outstanding response, or makes
its next move, or the block waits (10_state.md R22, R23; 20_memory.md R40; 70_reset_and_hazards.md R131). -/

namespace Sys2Proof.Machine

/-- The command on the command port, if one is in progress (R22). -/
def State.fetch (s : State) : Option CommandWord := s.command

/-- One move of the host. -/
def hostMove (m : HostMove) (s : State) : Host.Outcome State Fault Refusal :=
  match m with
  | .write a bytes => hostWrite a bytes s
  | .issue cw => .next (s.issue cw)
  | .reset => .next s.pulseReset

/-- The host's turn: "A second command cannot be issued until the response to the first has been returned"
(R22), so an outstanding response is taken first. With nothing to do the block waits (R131). -/
def hostTurn (s : State) : Host.Outcome State Fault Refusal :=
  match s.response with
  | some _ => .next s.takeResponse
  | none =>
    match s.host with
    | [] => .next s
    | m :: ms => hostMove m { s with host := ms }

end Sys2Proof.Machine
end

