-- ==== Sys2Proof/Machine/Step.lean ====
section
/-! DEFINITION. One step of the machine: the block executes the command on its port, whole (10_state.md R22,
20_memory.md R39); with no command there, it is the host's turn. -/

namespace Sys2Proof.Machine

def step (s : State) : Host.Outcome State Fault Refusal :=
  match s.fetch with
  | some cw => exec (decodeWord cw) s
  | none => hostTurn s

/-- The command whose low `nbits` bits are those of `w`, put on the command port, where the step finds it
(log 17). -/
def State.withFetchWord (s : State) (nbits w : Nat) : State :=
  s.issue (BitVec.ofNat 104 (w % 2 ^ nbits))

end Sys2Proof.Machine
end

