-- ==== Sys2Proof/Machine/FrameSequences.lean ====
section
/-! DEFINITION. The pseudo-operations (30_encoding.md R73): what the host does, command by command, to build a
frame (42_frame_sequence.md R104 to R106). The hardware sees only the operations they expand to. -/

namespace Sys2Proof.Machine

/-- Go on with a sequence after a command whose response is `OK`, the host having taken that response; stop,
with the response outstanding, at the first that is not (R109). -/
def andThenIfOk (o : Host.Outcome State Fault Refusal)
    (k : State → Response → Host.Outcome State Fault Refusal) : Host.Outcome State Fault Refusal :=
  match o with
  | .next t =>
    match t.response with
    | some r => if r.status = .ok then k t.takeResponse r else .next t
    | none => .next t
  | .fault f => .fault f
  | .refused f => .refused f

/-- `HDR1 addr, len, mf` is `HDR addr, len, 0x1, mf` (40_header_composer.md R83). -/
def runHdr1 (addr : Addr) (len : Len) (mf : Bool) (s : State) : Host.Outcome State Fault Refusal :=
  exec (.hdr addr len opcDefault mf) s

/-- `UNMASK.B` is `MASK.B` (41_mask_cipher.md R99). -/
def runUnmaskB (addr : Addr) (len : Len) (key : Key) (s : State) : Host.Outcome State Fault Refusal :=
  exec (.maskB addr len key) s

/-- `UNMASK.W` is `MASK.W` (R99). -/
def runUnmaskW (addr : Addr) (len : Len) (kw : KeyWord) (s : State) : Host.Outcome State Fault Refusal :=
  exec (.maskW addr len kw) s

/-- `FRAME.PLAIN h, len, opc` (R104). -/
def runFramePlain (h : Addr) (len : Len) (opc : Opcode) (s : State) : Host.Outcome State Fault Refusal :=
  exec (.hdr h len opc false) s

/-- `FRAME.KEY h, p, len, opc, key` (R105): `HDR`, a host write of the key at `h + n`, `MASK.B`. -/
def runFrameKey (h p : Addr) (len : Len) (opc : Opcode) (key : Key) (s : State) :
    Host.Outcome State Fault Refusal :=
  andThenIfOk (exec (.hdr h len opc true) s) fun t r =>
    match hostWrite (h.toNat + r.n.toNat) key.bytes t with
    | .next u => exec (.maskB p len key) u
    | o => o

/-- `FRAME.GEN h, p, len, opc` (R106): `HDR`, `KEYGEN` at `h + n`, `MASK.B` with the key returned. The host
computes `h + n` in the natural numbers; when no 32-bit operand stands for it the sequence stops there
(log 11). -/
def runFrameGen (h p : Addr) (len : Len) (opc : Opcode) (s : State) : Host.Outcome State Fault Refusal :=
  andThenIfOk (exec (.hdr h len opc true) s) fun t r =>
    if h.toNat + r.n.toNat < 2 ^ 32 then
      andThenIfOk (exec (.keygen (BitVec.ofNat 32 (h.toNat + r.n.toNat))) t) fun u q =>
        exec (.maskB p len (Key.ofField q.keyout)) u
    else .next t

/-- What the host does for one line of a program. -/
def runOperation (o : Operation) (s : State) : Host.Outcome State Fault Refusal :=
  match o with
  | .command i => exec i s
  | .hdr1 addr len mf => runHdr1 addr len mf s
  | .unmaskB addr len key => runUnmaskB addr len key s
  | .unmaskW addr len kw => runUnmaskW addr len kw s
  | .framePlain h len opc => runFramePlain h len opc s
  | .frameKey h p len opc key => runFrameKey h p len opc key s
  | .frameGen h p len opc => runFrameGen h p len opc s
  | .hostWrite a bytes => hostWrite a bytes s

end Sys2Proof.Machine
end

