-- ==== Sys2Proof/Safety.lean ====
section
/-! DEFINITION. The invariant of the machine, and what a run answers for (70_reset_and_hazards.md R134,
60_exceptions.md R121). -/

namespace Sys2Proof.Machine

/-- No byte is listed at an address that does not exist (20_memory.md R32). -/
abbrev Memory.Within (m : Memory) (size : Nat) : Prop := ∀ c ∈ m.cells, c.1 < size

/-- A response of the kind 30_encoding.md R66 describes: `N` is 0 but for a successful `HDR`, where it is one of
2, 4, 10; `KEYOUT` is 0 but for a successful `KEYGEN`, whose `N` is 0; on a fault both are 0 (R117). -/
abbrev Response.Wf (r : Response) : Prop :=
  (r.n = 0#4 ∨ r.status = .ok ∧ r.keyout = 0#32 ∧ (r.n = 2#4 ∨ r.n = 4#4 ∨ r.n = 10#4)) ∧
    (r.status = .ok ∨ r.keyout = 0#32)

/-- What every step keeps: the parameter is in its range (R7); memory is in its canonical form and lies in
`BUF`; no command is in progress while a response is outstanding (10_state.md R22); every response, outstanding
or received, is one the block can give (R66). -/
structure State.Inv (s : State) : Prop where
  cfgWf : s.cfg.Wf
  bufWf : s.buf.wf
  bufWithin : s.buf.Within s.cfg.bufSize
  oneAtATime : s.command = none ∨ s.response = none
  responseWf : ∀ r, s.response = some r → r.Wf
  receivedWf : ∀ r ∈ s.received, r.Wf

/-- The result of a run: the content of `BUF` and the list of responses received (R134). -/
def State.result (s : State) : Memory × List Response := (s.buf, s.received)

/-- No fault recorded: every response so far was `OK` (R121). -/
def State.AllOk (s : State) : Prop :=
  (∀ r, s.response = some r → r.status = .ok) ∧ ∀ r ∈ s.received, r.status = .ok

/-- The operation runs to its own effect: its region lies in `BUF` (R113), and a `KEYGEN` finds entropy
(R114). -/
abbrev State.CanDo (s : State) (i : Instr) : Prop :=
  i.start.toNat + i.regionLen ≤ s.cfg.bufSize ∧ ∀ addr, i = .keygen addr → s.rs.answer ≠ none

/-- The address lies outside the region of `n` bytes at `start` (20_memory.md R33). -/
abbrev OutsideRegion (start n a : Nat) : Prop := a < start ∨ start + n ≤ a

/-- The regions of `n` bytes at `a` and of `m` bytes at `b` do not overlap (70_reset_and_hazards.md R136). -/
abbrev DisjointRegions (a n b m : Nat) : Prop := a + n ≤ b ∨ b + m ≤ a

/-- What no command touches: the parameters (R25), the host's coming moves and the responses it has received;
and the command is over (R12). -/
abbrev CommandOver (s t : State) : Prop :=
  t.cfg = s.cfg ∧ t.host = s.host ∧ t.received = s.received ∧ t.command = none

end Sys2Proof.Machine
end

