-- ==== Sys2Proof/Certificates/Slice0/Obligations.lean ====
section
/-! DEFINITION. The statements for the provers, from the spec's numbered rules. -/

open Sys2Proof Sys2Proof.Machine

/-! ### Encoding -/

/-- The command word and the 13 bytes of every operation decode to it, every operand at every value. -/
def Obligations.DecodeEncodeAgree : Prop :=
  ∀ i : Instr, decodeWord (encodeWord i) = i ∧ decode (encode i) = .ok i

/-- R63 and R62: which bits select the operation and which bits are its operands; no word is refused. -/
def Obligations.CommandWordFields : Prop :=
  ∀ cw : CommandWord,
    (cw.extractLsb' 0 2 = 0b00#2 →
      decodeWord cw =
        .hdr (cw.extractLsb' 8 32) (cw.extractLsb' 40 32) (cw.extractLsb' 3 4) (cw.getLsbD 2)) ∧
    (cw.extractLsb' 0 2 = 0b01#2 → decodeWord cw = .keygen (cw.extractLsb' 8 32)) ∧
    (cw.extractLsb' 0 2 = 0b10#2 →
      decodeWord cw =
        .maskB (cw.extractLsb' 8 32) (cw.extractLsb' 40 32)
          ⟨cw.extractLsb' 72 8, cw.extractLsb' 80 8, cw.extractLsb' 88 8, cw.extractLsb' 96 8⟩) ∧
    (cw.extractLsb' 0 2 = 0b11#2 →
      decodeWord cw = .maskW (cw.extractLsb' 8 32) (cw.extractLsb' 40 32) (cw.extractLsb' 72 32))

/-- R64: two words that agree on the fields their operation uses do the same in every state. Bit 7 is no
field of the record, so it is free too. -/
def Obligations.IgnoredFieldsHaveNoEffect : Prop :=
  ∀ (cw cw' : CommandWord) (s : State),
    (Command.ofWord cw).cmd = (Command.ofWord cw').cmd →
    (Command.ofWord cw).addr = (Command.ofWord cw').addr →
    ((Command.ofWord cw).cmd ≠ 0b01#2 → (Command.ofWord cw).len = (Command.ofWord cw').len) →
    ((Command.ofWord cw).cmd = 0b00#2 →
      (Command.ofWord cw).opc = (Command.ofWord cw').opc ∧ (Command.ofWord cw).mf = (Command.ofWord cw').mf) →
    ((Command.ofWord cw).cmd = 0b10#2 ∨ (Command.ofWord cw).cmd = 0b11#2 →
      (Command.ofWord cw).key = (Command.ofWord cw').key) →
    exec (decodeWord cw) s = exec (decodeWord cw') s

/-- The command words of 95_test_vectors.md section 4.4, written out there from R63. -/
def Obligations.SpecCommandWordsDecode : Prop :=
  decodeWord 0x000000000000000A000000000C#104 = .hdr 0#32 10#32 1#4 true ∧
  decodeWord 0x00000000000111700000000008#104 = .hdr 0#32 70000#32 1#4 false ∧
  decodeWord 0x00000000FFFFFFFF0000010054#104 = .hdr 256#32 4294967295#32 0xA#4 true ∧
  decodeWord 0x00000000000000000000000201#104 = .keygen 2#32 ∧
  decodeWord 0x3D21FA37000000050000000602#104 =
    .maskB 6#32 5#32 ⟨0x37#8, 0xFA#8, 0x21#8, 0x3D#8⟩ ∧
  decodeWord 0x3D21FA37000000050000000603#104 = .maskW 6#32 5#32 0x3D21FA37#32

/-- R74: only 13 bytes are a command; fewer and more are refused, each by its name. -/
def Obligations.OnlyThirteenBytesDecode : Prop :=
  ∀ bytes : List Byte,
    (bytes.length < 13 → decode bytes = .error .truncated) ∧
    (bytes.length = 13 → ∃ i, decode bytes = .ok i) ∧
    (13 < bytes.length → decode bytes = .error .overlong)

/-- R71: an assembled `HDR` line keeps its numbers, and a line with a number out of range is refused. -/
def Obligations.AssembledHdrKeepsItsNumbers : Prop :=
  ∀ addr len opc mf : Nat,
    (addr < 2 ^ 32 ∧ len < 2 ^ 32 ∧ opc < 16 ∧ mf < 2 →
      ∃ (a : Addr) (l : Len) (o : Opcode),
        assemble (.hdr addr len (.number opc) mf) = .ok (.command (.hdr a l o (decide (mf = 1)))) ∧
        a.toNat = addr ∧ l.toNat = len ∧ o.toNat = opc) ∧
    (¬ (addr < 2 ^ 32 ∧ len < 2 ^ 32 ∧ opc < 16 ∧ mf < 2) →
      assemble (.hdr addr len (.number opc) mf) = .error .operandOutOfRange)

/-- R67: the bits of a response word, and that it can be read back. That a word with status code 3 stands for
no response is the model's reading of R66, "3 is never produced" (log 21, DEDUCED). -/
def Obligations.ResponseWordFields : Prop :=
  (∀ r : Response,
    r.toWord.extractLsb' 0 2 = r.status.code ∧ r.toWord.extractLsb' 2 4 = r.n ∧
    r.toWord.extractLsb' 6 32 = r.keyout ∧ Response.ofWord r.toWord = some r) ∧
  ∀ w : ResponseWord, w.extractLsb' 0 2 = 3#2 → Response.ofWord w = none

/-! ### The header -/

/-- R76: the three classes of a length, with strict boundaries. -/
def Obligations.HeaderLengthAndIndicator : Prop :=
  ∀ len : Len,
    (len.toNat < 126 → hdrLen len = 2 ∧ (indicator len).toNat = len.toNat) ∧
    (126 ≤ len.toNat ∧ len.toNat < 65536 → hdrLen len = 4 ∧ indicator len = 126#8) ∧
    (65536 ≤ len.toNat → hdrLen len = 10 ∧ indicator len = 127#8)

/-- R51 to R55: every bit of a header, in each of its three formats. -/
def Obligations.HeaderBitLayout : Prop :=
  ∀ (len : Len) (opc : Opcode) (mf : Bool),
    ∃ (b0 b1 : Byte) (ext : List Byte),
      hdrBytes len opc mf = b0 :: b1 :: ext ∧
      b0.getLsbD 7 = true ∧ b0.extractLsb' 4 3 = 0b000#3 ∧ b0.extractLsb' 0 4 = opc ∧
      b1.getLsbD 7 = mf ∧
      (len.toNat < 126 → b1.extractLsb' 0 7 = len.extractLsb' 0 7 ∧ ext = []) ∧
      (126 ≤ len.toNat ∧ len.toNat < 65536 →
        b1.extractLsb' 0 7 = 126#7 ∧ ext = [len.extractLsb' 8 8, len.extractLsb' 0 8]) ∧
      (65536 ≤ len.toNat →
        b1.extractLsb' 0 7 = 127#7 ∧
        ext = [0#8, 0#8, 0#8, 0#8,
          len.extractLsb' 24 8, len.extractLsb' 16 8, len.extractLsb' 8 8, len.extractLsb' 0 8])

/-- R84, items 1 and 2: how long a header is, and that its bytes give the operands back. -/
def Obligations.HeaderGivesItsOperandsBack : Prop :=
  (∀ (len : Len) (opc : Opcode) (mf : Bool),
    (hdrBytes len opc mf).length = hdrLen len ∧ declaredLen (hdrBytes len opc mf) = len.toNat) ∧
  (∀ len len' : Len, len.toNat ≤ len'.toNat → hdrLen len ≤ hdrLen len') ∧
  ∀ (len len' : Len) (opc opc' : Opcode) (mf mf' : Bool),
    hdrBytes len opc mf = hdrBytes len' opc' mf' → len = len' ∧ opc = opc' ∧ mf = mf'

/-- R59: the shortest form only; an indicator 126 or 127 is followed by a number of its own range. -/
def Obligations.HeaderIsMinimal : Prop :=
  ∀ (len : Len) (opc : Opcode) (mf : Bool) (b0 b1 : Byte) (ext : List Byte),
    hdrBytes len opc mf = b0 :: b1 :: ext →
      (ext = [] ↔ len.toNat < 126) ∧ (ext.length = 8 ↔ 65536 ≤ len.toNat) ∧
      (b1.extractLsb' 0 7 = 126#7 → ext.length = 2 ∧ 126 ≤ beNat ext ∧ beNat ext ≤ 65535) ∧
      (b1.extractLsb' 0 7 = 127#7 →
        ext.length = 8 ∧ 65536 ≤ beNat ext ∧ beNat ext ≤ 2 ^ 32 - 1 ∧ ext.take 4 = [0#8, 0#8, 0#8, 0#8])

/-- R80: what `HDR` writes, what it leaves alone, what it answers, and when it faults. -/
def Obligations.HdrWritesHeader : Prop :=
  ∀ (addr : Addr) (len : Len) (opc : Opcode) (mf : Bool) (s : State),
    (addr.toNat + hdrLen len ≤ s.cfg.bufSize →
      ∃ t, exec (.hdr addr len opc mf) s = .next t ∧
        t.buf.readSeq addr.toNat (hdrLen len) = hdrBytes len opc mf ∧
        (∀ a, OutsideRegion addr.toNat (hdrLen len) a → t.buf.read a = s.buf.read a) ∧
        (∃ n, t.response = some ⟨.ok, n, 0#32⟩ ∧ n.toNat = hdrLen len) ∧
        t.rs = s.rs ∧ CommandOver s t) ∧
    (s.cfg.bufSize < addr.toNat + hdrLen len →
      exec (.hdr addr len opc mf) s =
        .next { s with command := none, response := some ⟨.invalidArgument, 0#4, 0#32⟩ })

/-- R41 and the last row of R81: a second `HDR` with the same operands leaves `BUF` as the first left it. -/
def Obligations.RepeatedHdrLeavesBufAsItWas : Prop :=
  ∀ (addr : Addr) (len : Len) (opc : Opcode) (mf : Bool) (s t : State),
    exec (.hdr addr len opc mf) s = .next t →
      ∃ u, exec (.hdr addr len opc mf) t = .next u ∧ u.buf = t.buf ∧ u.response = t.response

/-! ### The key -/

/-- R87 and R118: what `KEYGEN` writes and answers, when each of its faults is raised, and that the random
source is asked only after the bounds check has passed. That an answer `none`, too, is gone after the step
that took it is the model's reading of R24 and R25 (log 22, DEDUCED). -/
def Obligations.KeygenWritesDrawnKey : Prop :=
  ∀ (addr : Addr) (s : State),
    (∀ k : Key, addr.toNat + 4 ≤ s.cfg.bufSize → s.rs.answer = some k →
      ∃ t, exec (.keygen addr) s = .next t ∧
        t.buf.read addr.toNat = k.k0 ∧ t.buf.read (addr.toNat + 1) = k.k1 ∧
        t.buf.read (addr.toNat + 2) = k.k2 ∧ t.buf.read (addr.toNat + 3) = k.k3 ∧
        (∀ a, OutsideRegion addr.toNat 4 a → t.buf.read a = s.buf.read a) ∧
        (∃ w, t.response = some ⟨.ok, 0#4, w⟩ ∧ w.extractLsb' 0 8 = k.k0 ∧ w.extractLsb' 8 8 = k.k1 ∧
          w.extractLsb' 16 8 = k.k2 ∧ w.extractLsb' 24 8 = k.k3) ∧
        t.rs = s.rs.advance ∧ CommandOver s t) ∧
    (addr.toNat + 4 ≤ s.cfg.bufSize → s.rs.answer = none →
      exec (.keygen addr) s = .next { s with
        rs := s.rs.advance, command := none, response := some ⟨.randomSourceUnavailable, 0#4, 0#32⟩ }) ∧
    (s.cfg.bufSize < addr.toNat + 4 →
      exec (.keygen addr) s =
        .next { s with command := none, response := some ⟨.invalidArgument, 0#4, 0#32⟩ })

/-- R24 and R88: whatever the memory and the operand, every answer of the random source is possible, and
twice the same. -/
def Obligations.EveryAnswerIsPossibleTwice : Prop :=
  ∀ (addr : Addr) (s : State) (k : Key), addr.toNat + 4 ≤ s.cfg.bufSize →
    ∃ (rs : RandomSource) (t u : State),
      exec (.keygen addr) { s with rs := rs } = .next t ∧ exec (.keygen addr) t = .next u ∧
      t.response = some ⟨.ok, 0#4, k.toField⟩ ∧ u.response = some ⟨.ok, 0#4, k.toField⟩

/-- R24: the random source is asked at most once per command, only by `KEYGEN`, only when its region fits. -/
def Obligations.OnlyKeygenAsksTheRandomSource : Prop :=
  ∀ (i : Instr) (s t : State), exec i s = .next t →
    t.rs = s.rs ∨
    ∃ addr, i = .keygen addr ∧ addr.toNat + 4 ≤ s.cfg.bufSize ∧ t.rs = s.rs.advance ∧
      t.rs.asked = s.rs.asked + 1

/-! ### The mask -/

/-- R92: what `MASK.B` does to its region, byte by byte and as a whole, what it leaves alone, what it answers,
and when it faults. -/
def Obligations.MaskBXorsItsRegion : Prop :=
  ∀ (addr : Addr) (len : Len) (k : Key) (s : State),
    (addr.toNat + len.toNat ≤ s.cfg.bufSize →
      ∃ t, exec (.maskB addr len k) s = .next t ∧
        (∀ i, i < len.toNat →
          t.buf.read (addr.toNat + i) =
            s.buf.read (addr.toNat + i) ^^^ [k.k0, k.k1, k.k2, k.k3].getD (i % 4) 0#8) ∧
        t.buf.readSeq addr.toNat len.toNat = xor4 (s.buf.readSeq addr.toNat len.toNat) k ∧
        (∀ a, OutsideRegion addr.toNat len.toNat a → t.buf.read a = s.buf.read a) ∧
        t.response = some ⟨.ok, 0#4, 0#32⟩ ∧ t.rs = s.rs ∧ CommandOver s t) ∧
    (s.cfg.bufSize < addr.toNat + len.toNat →
      exec (.maskB addr len k) s =
        .next { s with command := none, response := some ⟨.invalidArgument, 0#4, 0#32⟩ })

/-- R94 and R95: `MASK.W` under either byte order of the key word. -/
def Obligations.MaskWXorsItsRegion : Prop :=
  ∀ (addr : Addr) (len : Len) (kw : KeyWord) (s : State),
    (addr.toNat + len.toNat ≤ s.cfg.bufSize →
      ∃ t, exec (.maskW addr len kw) s = .next t ∧
        (s.cfg.keyWordByteOrder = .little → ∀ i, i < len.toNat →
          t.buf.read (addr.toNat + i) = s.buf.read (addr.toNat + i) ^^^ kw.extractLsb' (8 * (i % 4)) 8) ∧
        (s.cfg.keyWordByteOrder = .big → ∀ i, i < len.toNat →
          t.buf.read (addr.toNat + i) = s.buf.read (addr.toNat + i) ^^^ kw.extractLsb' (24 - 8 * (i % 4)) 8) ∧
        (∀ a, OutsideRegion addr.toNat len.toNat a → t.buf.read a = s.buf.read a) ∧
        t.response = some ⟨.ok, 0#4, 0#32⟩ ∧ t.rs = s.rs ∧ CommandOver s t) ∧
    (s.cfg.bufSize < addr.toNat + len.toNat →
      exec (.maskW addr len kw) s =
        .next { s with command := none, response := some ⟨.invalidArgument, 0#4, 0#32⟩ })

/-- R96: the two key forms agree, and under `little` the two commands differ only in their `CMD` field. -/
def Obligations.MaskFormsAgree : Prop :=
  (∀ (addr : Addr) (len : Len) (kw : KeyWord) (s : State),
    exec (.maskW addr len kw) s = exec (.maskB addr len (keyBytes s.cfg.keyWordByteOrder kw)) s) ∧
  ∀ (addr : Addr) (len : Len) (kw : KeyWord),
    encodeCommand (.maskW addr len kw) =
      { encodeCommand (.maskB addr len (keyBytes .little kw)) with cmd := 0b11#2 }

/-- R90 and R101: the laws of the transform, and that a `MASK` leaves every other byte alone. -/
def Obligations.XorTransformLaws : Prop :=
  (∀ (s : List Byte) (k : Key),
    (xor4 s k).length = s.length ∧
    (∀ i, i < s.length → (xor4 s k).getD i 0#8 = s.getD i 0#8 ^^^ k.byte i) ∧
    xor4 (xor4 s k) k = s ∧
    xor4 s ⟨0#8, 0#8, 0#8, 0#8⟩ = s) ∧
  (∀ (s : List Byte) (k k' : Key), xor4 (xor4 s k) k' = xor4 s (k.xor k')) ∧
  (∀ (s t : List Byte) (k : Key), xor4 (s ++ t) k = xor4 s k ++ xor4 t (k.rot (s.length % 4))) ∧
  (∀ (k : Key) (n : Nat) (u : List Byte), u.length = n →
    ∃ s : List Byte, s.length = n ∧ xor4 s k = u ∧ ∀ s', xor4 s' k = u → s' = s) ∧
  (∀ (addr : Addr) (len : Len) (k : Key) (kw : KeyWord) (s t : State) (a : Nat),
    OutsideRegion addr.toNat len.toNat a →
    exec (.maskB addr len k) s = .next t ∨ exec (.maskW addr len kw) s = .next t →
      t.buf.read a = s.buf.read a)

/-- R97: a second `MASK` with the same operands, with no write to the region in between, restores every byte
of the region; the transform undoes itself; and it is not idempotent: on any four bytes or more, applying it
twice does not equal applying it once unless the key is zero. -/
def Obligations.MaskTwiceRestores : Prop :=
  (∀ (s : List Byte) (k : Key), xor4 (xor4 s k) k = s) ∧
  (∀ (s : List Byte) (k : Key), 4 ≤ s.length → xor4 (xor4 s k) k = xor4 s k →
    k = ⟨0#8, 0#8, 0#8, 0#8⟩) ∧
  ∀ (i : Instr) (addr : Addr) (len : Len) (s t t' : State),
    ((∃ k, i = .maskB addr len k) ∨ ∃ kw, i = .maskW addr len kw) →
    addr.toNat + len.toNat ≤ s.cfg.bufSize →
    exec i s = .next t →
    t'.cfg = t.cfg →
    (∀ j, j < len.toNat → t'.buf.read (addr.toNat + j) = t.buf.read (addr.toNat + j)) →
      ∃ u, exec i t' = .next u ∧
        ∀ j, j < len.toNat → u.buf.read (addr.toNat + j) = s.buf.read (addr.toNat + j)

/-- The last row of R98: a payload masked in two commands, the second with the key rotated, comes out as
masked in one. -/
def Obligations.SplitMaskingRotatesTheKey : Prop :=
  ∀ (addr addr' : Addr) (m r len : Len) (k : Key) (s : State),
    addr'.toNat = addr.toNat + m.toNat → len.toNat = m.toNat + r.toNat →
    addr.toNat + len.toNat ≤ s.cfg.bufSize →
      ∃ t u v, exec (.maskB addr m k) s = .next t ∧
        exec (.maskB addr' r (k.rot (m.toNat % 4))) t = .next u ∧
        exec (.maskB addr len k) s = .next v ∧
        ∀ a, u.buf.read a = v.buf.read a

/-- The first two rows of R98 and its row of the zero key. -/
def Obligations.EmptyMaskAndZeroKey : Prop :=
  ∀ (addr : Addr) (len : Len) (k : Key) (s : State),
    (addr.toNat ≤ s.cfg.bufSize →
      exec (.maskB addr 0#32 k) s =
        .next { s with command := none, response := some ⟨.ok, 0#4, 0#32⟩ }) ∧
    (s.cfg.bufSize < addr.toNat →
      exec (.maskB addr 0#32 k) s =
        .next { s with command := none, response := some ⟨.invalidArgument, 0#4, 0#32⟩ }) ∧
    (addr.toNat + len.toNat ≤ s.cfg.bufSize →
      ∃ t, exec (.maskB addr len ⟨0#8, 0#8, 0#8, 0#8⟩) s = .next t ∧
        t.response = some ⟨.ok, 0#4, 0#32⟩ ∧ ∀ a, t.buf.read a = s.buf.read a)

/-- R9: address sums do not wrap at `2^32`, in the cases R81 and R98 name. -/
def Obligations.AddressSumsDoNotWrap : Prop :=
  ∀ (len : Len) (opc : Opcode) (mf : Bool) (k : Key) (s : State), s.cfg.Wf →
    exec (.hdr 0xFFFFFFFF#32 len opc mf) s =
      .next { s with command := none, response := some ⟨.invalidArgument, 0#4, 0#32⟩ } ∧
    exec (.maskB 0xFFFFFFFF#32 0xFFFFFFFF#32 k) s =
      .next { s with command := none, response := some ⟨.invalidArgument, 0#4, 0#32⟩ }

/-! ### All operations -/

/-- Every command in every state answers a next state with exactly one response (R112): `InvalidArgument` for
the cause R113 gives and no other, `RandomSourceUnavailable` for R114's, and `OK` when the command did what its
rule says (R111). -/
def Obligations.EveryCommandAnswersOnce : Prop :=
  ∀ (i : Instr) (s : State),
    ∃ t r, exec i s = .next t ∧ t.response = some r ∧ CommandOver s t ∧
      (r.status = .invalidArgument ↔ s.cfg.bufSize < i.start.toNat + i.regionLen) ∧
      (r.status = .randomSourceUnavailable ↔
        i.start.toNat + i.regionLen ≤ s.cfg.bufSize ∧ (∃ addr, i = .keygen addr) ∧ s.rs.answer = none) ∧
      (r.status = .ok ↔ s.CanDo i)

/-- R116 and R117: a command that faults leaves `BUF` exactly as it found it and answers zeros, and an
`InvalidArgument` consumes no random answer. -/
def Obligations.FaultLeavesBufUnchanged : Prop :=
  ∀ (i : Instr) (s t : State) (r : Response),
    exec i s = .next t → t.response = some r → r.status ≠ .ok →
      t.buf = s.buf ∧ r.n = 0#4 ∧ r.keyout = 0#32 ∧ CommandOver s t ∧
      (r.status = .invalidArgument → t.rs = s.rs)

/-- R120: a fault is not sticky; after an `InvalidArgument`, which consumes no answer of the random source
(R116), the next command runs as if the faulting one had never been issued. The second clause is the model's
(log 22, DEDUCED): a `KEYGEN` that found no entropy has asked the source once (R24), and the answer `none` it
took is gone. -/
def Obligations.FaultIsNotSticky : Prop :=
  ∀ (i j : Instr) (s t : State) (r : Response),
    exec i s = .next t → t.response = some r →
      (r.status = .invalidArgument → exec j t = exec j s) ∧
      (r.status = .randomSourceUnavailable → exec j t = exec j s.askRandom)

/-- R34: no operation touches a byte outside its region; and a successful `HDR` or `KEYGEN` does not depend on
what its region held. -/
def Obligations.OperationsStayInTheirRegion : Prop :=
  (∀ (i : Instr) (s t : State) (a : Nat), exec i s = .next t →
    OutsideRegion i.start.toNat i.regionLen a → t.buf.read a = s.buf.read a) ∧
  ∀ (i : Instr) (s s' t t' : State) (j : Nat),
    ((∃ addr len opc mf, i = .hdr addr len opc mf) ∨ ∃ addr, i = .keygen addr) →
    s'.cfg = s.cfg → s'.rs.answer = s.rs.answer → s.CanDo i → j < i.regionLen →
    exec i s = .next t → exec i s' = .next t' →
      t.buf.read (i.start.toNat + j) = t'.buf.read (i.start.toNat + j)

/-- R42: the new value of a byte depends only on the operands, on the random answer, and on the old value of
that byte. -/
def Obligations.NewByteDependsOnlyOnItsOldValue : Prop :=
  ∀ (i : Instr) (s s' t t' : State) (a : Nat),
    s'.cfg = s.cfg → s'.rs.answer = s.rs.answer → s'.buf.read a = s.buf.read a →
    exec i s = .next t → exec i s' = .next t' → t'.buf.read a = t.buf.read a

/-- R16: the same operands, the same `BUF` and the same random answer give the same response and the same new
`BUF`, whatever the host and the ports hold. -/
def Obligations.BufIsTheOnlyState : Prop :=
  ∀ (i : Instr) (s s' : State),
    s'.cfg = s.cfg → s'.buf = s.buf → s'.rs.answer = s.rs.answer →
      ∃ t t', exec i s = .next t ∧ exec i s' = .next t' ∧ t'.buf = t.buf ∧ t'.response = t.response

/-- R121: a command that can do its work is answered `OK`, so a run without a fault stays one. -/
def Obligations.RunWithoutFaultStaysSo : Prop :=
  ∀ (i : Instr) (s : State), s.CanDo i → s.AllOk → ∃ t, exec i s = .next t ∧ t.AllOk

/-! ### The machine -/

/-- R30 and R129: what reset leaves, for every value of the two open parameters. That the host has no move
pending and has received nothing is the model's own (log 6, log 7). -/
def Obligations.ResetIsIdleAndNothingIsKnown : Prop :=
  ∀ c : Config,
    (State.resetWith c).cfg = c ∧ (State.resetWith c).command = none ∧ (State.resetWith c).response = none ∧
    (∀ a, (State.resetWith c).buf.known a = none) ∧
    (State.resetWith c).host = [] ∧ (State.resetWith c).received = []

/-- The invariant holds at reset. -/
def Obligations.ResetMeetsTheInvariant : Prop :=
  (∀ c : Config, c.Wf → (State.resetWith c).Inv) ∧ State.reset.Inv

/-- Every step keeps the invariant: the parameter's range, the memory's form and bounds, one command or one
response at a time (R22), and responses of the kind R66 describes. -/
def Obligations.StepKeepsTheInvariant : Prop :=
  ∀ s t : State, s.Inv → step s = .next t → t.Inv

/-- A step runs the command on the port (R22), decoded by its fields (R63), whole and with nothing around it.
The third clause is about the model's own `State.withFetchWord`, which no rule gives (log 17, DESIGN CHOICE):
a word placed with it is the word on the port. -/
def Obligations.StepRunsTheCommandOnThePort : Prop :=
  (∀ (s : State) (cw : CommandWord), s.command = some cw → step s = exec (decodeWord cw) s) ∧
  (∀ (s : State) (i : Instr), s.command = some (encodeWord i) → step s = exec i s) ∧
  ∀ (s : State) (i : Instr),
    step (s.withFetchWord 104 (encodeWord i).toNat) = exec i (s.issue (encodeWord i))

/-- R22, R39, R40: a step with a command on the port finishes it, and the host makes no move in it (the host as
a list of moves, and the record of responses received, are the model's: log 6, log 7, log 12). -/
def Obligations.HostMakesNoMoveDuringACommand : Prop :=
  ∀ (s : State) (cw : CommandWord), s.command = some cw →
    ∃ t r, step s = .next t ∧ t.host = s.host ∧ t.received = s.received ∧ t.command = none ∧
      t.response = some r

/-- R22: an outstanding response is taken before the host moves again, and a command comes onto the port only
from the host and only when no response is outstanding. That the host takes the response in a step of its own,
makes one move a step and keeps what it received is the model's choice (log 6, log 7). -/
def Obligations.ResponseIsTakenBeforeTheNextCommand : Prop :=
  (∀ (s : State) (r : Response), s.command = none → s.response = some r →
    step s = .next { s with response := none, received := s.received ++ [r] }) ∧
  ∀ (s t : State) (cw : CommandWord), s.command = none → step s = .next t → t.command = some cw →
    s.response = none ∧ ∃ ms, s.host = .issue cw :: ms ∧ t = { s with command := some cw, host := ms }

/-- R40: between commands the host writes any bytes of `BUF`. The last clause is the model's choice: R32 says
only that no address outside `BUF` exists, and that a write with such an address stops the model is log 9
(DEDUCED), that it stops whole, and that a write of no bytes above `BUF_SIZE` stops it too, is log 20 (DESIGN
CHOICE). -/
def Obligations.HostWritesBetweenCommands : Prop :=
  ∀ (s : State) (a : Nat) (bytes : List Byte) (ms : List HostMove),
    s.command = none → s.response = none → s.host = .write a bytes :: ms →
      (a + bytes.length ≤ s.cfg.bufSize →
        ∃ t, step s = .next t ∧ t.buf.readSeq a bytes.length = bytes ∧
          (∀ b, OutsideRegion a bytes.length b → t.buf.read b = s.buf.read b) ∧
          t.host = ms ∧ t.cfg = s.cfg ∧ t.rs = s.rs ∧ t.received = s.received ∧ t.command = none ∧
          t.response = none) ∧
      (s.cfg.bufSize < a + bytes.length → step s = .fault .hostWriteOutsideBuf)

/-- R131: with no command, no response and no move of the host, the block waits. -/
def Obligations.IdleBlockWaits : Prop :=
  ∀ s : State, s.command = none → s.response = none → s.host = [] → step s = .next s

/-- R129 and R130: a reset between commands leaves the ports idle and `BUF` with no known byte; that the
parameters stay is R30's, that the host's own record stays is the model's (log 10). -/
def Obligations.ResetBetweenCommands : Prop :=
  ∀ (s : State) (ms : List HostMove),
    s.command = none → s.response = none → s.host = .reset :: ms →
      ∃ t, step s = .next t ∧ t.command = none ∧ t.response = none ∧ (∀ a, t.buf.known a = none) ∧
        t.cfg = s.cfg ∧ t.host = ms ∧ t.received = s.received

/-- R25: no step changes the parameters of the instance. -/
def Obligations.StepKeepsTheParameters : Prop :=
  ∀ s t : State, step s = .next t → t.cfg = s.cfg

/-- R112: no command stops the machine, and nothing is refused. That a host write which ends above `BUF_SIZE` is
what does stop it is the model's choice (log 9, log 20). -/
def Obligations.OnlyAHostWriteOutsideBufStops : Prop :=
  ∀ s : State,
    (∀ f, step s = .fault f →
      s.command = none ∧ ∃ a bytes ms, s.host = .write a bytes :: ms ∧ s.cfg.bufSize < a + bytes.length) ∧
    ∀ r, step s ≠ .refused r

/-- A command the host issues is put on the port, executed, and its response taken (R22); the result is `BUF` as
the command left it (R45) and one more response (R134). That this takes three steps, one host move a step, is
the model's choice (log 6, DESIGN CHOICE), and so is the list of responses received as a field (log 7, DESIGN
CHOICE). -/
def Obligations.IssuedCommandRunsAndReturns : Prop :=
  ∀ (s : State) (i : Instr) (ms : List HostMove),
    s.command = none → s.response = none → s.host = .issue (encodeWord i) :: ms →
      ∃ t r, exec i { s with host := ms, command := some (encodeWord i) } = .next t ∧ t.response = some r ∧
        Host.Core.run Sys2Proof.core 3 s = .next t.takeResponse ∧
        t.takeResponse.result = (t.buf, s.received ++ [r]) ∧ t.takeResponse.host = ms

/-- Equal knowledge of `BUF` is equal data: two memories in canonical form that know the same bytes (and count
the same resets) are the same. A property of the model's own memory (log 3). -/
def Obligations.EqualKnowledgeIsEqualMemory : Prop :=
  ∀ m m' : Memory, m.wf → m'.wf → m.epoch = m'.epoch → (∀ a, m.known a = m'.known a) → m = m'

/-! ### Frames -/

/-- R83, R99, R104: the pseudo-operations that are one command. -/
def Obligations.OneCommandPseudoOperations : Prop :=
  ∀ (addr : Addr) (len : Len) (opc : Opcode) (mf : Bool) (k : Key) (kw : KeyWord) (s : State),
    runOperation (.hdr1 addr len mf) s = exec (.hdr addr len 0x1#4 mf) s ∧
    runOperation (.unmaskB addr len k) s = exec (.maskB addr len k) s ∧
    runOperation (.unmaskW addr len kw) s = exec (.maskW addr len kw) s ∧
    runOperation (.framePlain addr len opc) s = exec (.hdr addr len opc false) s

/-- R102: how long a frame is. -/
def Obligations.FrameLength : Prop :=
  ∀ (p : List Byte) (opc : Opcode) (k : Key), p.length < 2 ^ 32 →
    (frame p opc none).length = hdrLen (BitVec.ofNat 32 p.length) + p.length ∧
    (frame p opc (some k)).length = hdrLen (BitVec.ofNat 32 p.length) + 4 + p.length

/-- R104: `FRAME.PLAIN` leaves the payload alone, and header and payload together are the frame. -/
def Obligations.PlainFrameIsBuilt : Prop :=
  ∀ (h p : Addr) (len : Len) (opc : Opcode) (s : State),
    h.toNat + hdrLen len ≤ s.cfg.bufSize → p.toNat + len.toNat ≤ s.cfg.bufSize →
    DisjointRegions h.toNat (hdrLen len) p.toNat len.toNat →
      ∃ t, runOperation (.framePlain h len opc) s = .next t ∧
        t.response = some ⟨.ok, BitVec.ofNat 4 (hdrLen len), 0#32⟩ ∧
        t.buf.readSeq h.toNat (hdrLen len) = hdrBytes len opc false ∧
        (∀ a, OutsideRegion h.toNat (hdrLen len) a → t.buf.read a = s.buf.read a) ∧
        t.buf.readSeq h.toNat (hdrLen len) ++ t.buf.readSeq p.toNat len.toNat =
          frame (s.buf.readSeq p.toNat len.toNat) opc none

/-- R105: `FRAME.KEY` builds the frame masked with the caller's key. -/
def Obligations.KeyedFrameIsBuilt : Prop :=
  ∀ (h p : Addr) (len : Len) (opc : Opcode) (k : Key) (s : State),
    h.toNat + hdrLen len + 4 ≤ s.cfg.bufSize → p.toNat + len.toNat ≤ s.cfg.bufSize →
    DisjointRegions h.toNat (hdrLen len + 4) p.toNat len.toNat →
      ∃ t, runOperation (.frameKey h p len opc k) s = .next t ∧
        t.response = some ⟨.ok, 0#4, 0#32⟩ ∧
        t.buf.readSeq h.toNat (hdrLen len + 4) ++ t.buf.readSeq p.toNat len.toNat =
          frame (s.buf.readSeq p.toNat len.toNat) opc (some k)

/-- R106: `FRAME.GEN` builds the frame masked with the key the random source gave, whatever it was; and
unmasking the payload with the key read back from `BUF` gives the payload back. -/
def Obligations.GeneratedFrameIsBuilt : Prop :=
  ∀ (h p : Addr) (len : Len) (opc : Opcode) (k : Key) (s : State), s.cfg.Wf →
    h.toNat + hdrLen len + 4 ≤ s.cfg.bufSize → p.toNat + len.toNat ≤ s.cfg.bufSize →
    DisjointRegions h.toNat (hdrLen len + 4) p.toNat len.toNat →
    s.rs.answer = some k →
      ∃ t, runOperation (.frameGen h p len opc) s = .next t ∧
        t.response = some ⟨.ok, 0#4, 0#32⟩ ∧
        t.buf.readSeq h.toNat (hdrLen len + 4) ++ t.buf.readSeq p.toNat len.toNat =
          frame (s.buf.readSeq p.toNat len.toNat) opc (some k) ∧
        ∀ k' : Key, k'.bytes = t.buf.readSeq (h.toNat + hdrLen len) 4 →
          ∃ u, exec (.maskB p len k') t = .next u ∧
            u.buf.readSeq p.toNat len.toNat = s.buf.readSeq p.toNat len.toNat

/-- R109: `FRAME.GEN` stops at the first response that is not `OK`, and what was written before it stays. -/
def Obligations.SequenceStopsAtTheFirstFault : Prop :=
  ∀ (h p : Addr) (len : Len) (opc : Opcode) (s : State), s.cfg.Wf →
    (s.cfg.bufSize < h.toNat + hdrLen len →
      runOperation (.frameGen h p len opc) s =
        .next { s with command := none, response := some ⟨.invalidArgument, 0#4, 0#32⟩ }) ∧
    (h.toNat + hdrLen len < 2 ^ 32 → h.toNat + hdrLen len ≤ s.cfg.bufSize →
      s.cfg.bufSize < h.toNat + hdrLen len + 4 →
      ∃ t, runOperation (.frameGen h p len opc) s = .next t ∧
        t.response = some ⟨.invalidArgument, 0#4, 0#32⟩ ∧
        t.buf.readSeq h.toNat (hdrLen len) = hdrBytes len opc true ∧
        ∀ a, OutsideRegion h.toNat (hdrLen len) a → t.buf.read a = s.buf.read a) ∧
    (h.toNat + hdrLen len + 4 ≤ s.cfg.bufSize → s.rs.answer = none →
      ∃ t, runOperation (.frameGen h p len opc) s = .next t ∧
        t.response = some ⟨.randomSourceUnavailable, 0#4, 0#32⟩ ∧
        t.buf.readSeq h.toNat (hdrLen len) = hdrBytes len opc true ∧
        ∀ a, OutsideRegion h.toNat (hdrLen len) a → t.buf.read a = s.buf.read a) ∧
    (∀ k, h.toNat + hdrLen len + 4 ≤ s.cfg.bufSize → s.rs.answer = some k →
      s.cfg.bufSize < p.toNat + len.toNat →
      ∃ t, runOperation (.frameGen h p len opc) s = .next t ∧
        t.response = some ⟨.invalidArgument, 0#4, 0#32⟩ ∧
        t.buf.readSeq h.toNat (hdrLen len + 4) = hdrBytes len opc true ++ k.bytes ∧
        ∀ a, OutsideRegion h.toNat (hdrLen len + 4) a → t.buf.read a = s.buf.read a)

/-- R110: on disjoint regions the order of `HDR` and `MASK` does not matter. -/
def Obligations.HdrAndMaskCommute : Prop :=
  ∀ (h p : Addr) (len m : Len) (opc : Opcode) (mf : Bool) (k : Key) (s : State),
    h.toNat + hdrLen len ≤ s.cfg.bufSize → p.toNat + m.toNat ≤ s.cfg.bufSize →
    DisjointRegions h.toNat (hdrLen len) p.toNat m.toNat →
      ∃ t u t' u', exec (.hdr h len opc mf) s = .next t ∧ exec (.maskB p m k) t = .next u ∧
        exec (.maskB p m k) s = .next t' ∧ exec (.hdr h len opc mf) t' = .next u' ∧
        ∀ a, u.buf.read a = u'.buf.read a
end

