-- ==== Sys2Proof/Laws/Memory.lean ====
section
/-! SUPPORT. The laws of `BUF`: a read after a write, the canonical form, sequences and the XOR of a region.
None of the read laws needs the canonical form. -/

namespace Sys2Proof.Machine

/-! ### Cells -/

theorem lookupCell_insertCell_same (cs : List Host.Cell) (a : Nat) (v : Byte) :
    lookupCell (insertCell cs a v) a = some v := by
  induction cs with
  | nil => simp [insertCell, lookupCell]
  | cons c cs ih =>
    obtain ⟨b, w⟩ := c
    simp only [insertCell]
    split
    · next h => simp [lookupCell, Nat.ne_of_lt h, ih]
    · split <;> simp [lookupCell]

theorem lookupCell_insertCell_other (cs : List Host.Cell) {a b : Nat} (v : Byte) (h : b ≠ a) :
    lookupCell (insertCell cs a v) b = lookupCell cs b := by
  induction cs with
  | nil => simp [insertCell, lookupCell, h.symm]
  | cons c cs ih =>
    obtain ⟨d, w⟩ := c
    simp only [insertCell]
    split
    · simp [lookupCell, ih]
    · split
      · next hd => subst hd; simp [lookupCell, h.symm]
      · simp [lookupCell, h.symm]

theorem mem_insertCell {cs : List Host.Cell} {a : Nat} {v : Byte} {c : Host.Cell}
    (h : c ∈ insertCell cs a v) : c = (a, v) ∨ c ∈ cs := by
  induction cs with
  | nil => simpa [insertCell] using h
  | cons d cs ih =>
    obtain ⟨b, w⟩ := d
    simp only [insertCell] at h
    split at h
    · rcases List.mem_cons.mp h with h | h
      · simp [h]
      · rcases ih h with h | h <;> simp [h]
    · split at h
      · rcases List.mem_cons.mp h with h | h <;> simp [h]
      · rcases List.mem_cons.mp h with h | h
        · simp [h]
        · exact .inr h

theorem insertCell_sorted {cs : List Host.Cell} (a : Nat) (v : Byte)
    (h : cs.Pairwise (fun c d => c.1 < d.1)) : (insertCell cs a v).Pairwise (fun c d => c.1 < d.1) := by
  induction cs with
  | nil => simp [insertCell]
  | cons c cs ih =>
    obtain ⟨b, w⟩ := c
    rw [List.pairwise_cons] at h
    obtain ⟨hb, hcs⟩ := h
    simp only [insertCell]
    split
    · next hlt =>
      rw [List.pairwise_cons]
      refine ⟨fun d hd => ?_, ih hcs⟩
      rcases mem_insertCell hd with rfl | hd
      · exact hlt
      · exact hb d hd
    · split
      · next heq => subst heq; exact List.pairwise_cons.mpr ⟨hb, hcs⟩
      · next h1 h2 =>
        have hab : a < b := by omega
        refine List.pairwise_cons.mpr ⟨fun d hd => ?_, List.pairwise_cons.mpr ⟨hb, hcs⟩⟩
        rcases List.mem_cons.mp hd with rfl | hd
        · exact hab
        · exact hab.trans (hb d hd)

/-- A later write to the same address makes an earlier one as if it had not been. -/
theorem insertCell_insertCell (cs : List Host.Cell) (a : Nat) (v w : Byte) :
    insertCell (insertCell cs a v) a w = insertCell cs a w := by
  induction cs with
  | nil => simp [insertCell]
  | cons c cs ih =>
    obtain ⟨b, u⟩ := c
    by_cases h : b < a
    · simp [insertCell, h, ih]
    · by_cases h' : b = a <;> simp [insertCell, h, h']

namespace Memory

variable (m : Memory)

/-! ### One byte -/

@[simp] theorem write_epoch (a : Nat) (v : Byte) : (m.write a v).epoch = m.epoch := rfl

@[simp] theorem known_write_same (a : Nat) (v : Byte) : (m.write a v).known a = some v :=
  lookupCell_insertCell_same m.cells a v

theorem known_write_other {a b : Nat} (v : Byte) (h : b ≠ a) : (m.write a v).known b = m.known b :=
  lookupCell_insertCell_other m.cells v h

@[simp] theorem read_write_same (a : Nat) (v : Byte) : (m.write a v).read a = v := by
  simp [read]

theorem read_write_other {a b : Nat} (v : Byte) (h : b ≠ a) : (m.write a v).read b = m.read b := by
  simp [read, known_write_other m v h]

theorem wf_write {m : Memory} (h : m.wf) (a : Nat) (v : Byte) : (m.write a v).wf := insertCell_sorted a v h

theorem write_write_same (a : Nat) (v w : Byte) : (m.write a v).write a w = m.write a w := by
  simp [write, insertCell_insertCell]

/-! ### A sequence of bytes -/

@[simp] theorem writeSeq_nil (a : Nat) : m.writeSeq a [] = m := rfl

@[simp] theorem writeSeq_epoch (a : Nat) (bs : List Byte) : (m.writeSeq a bs).epoch = m.epoch := by
  induction bs generalizing m a with
  | nil => rfl
  | cons b bs ih => simp [writeSeq, ih]

theorem wf_writeSeq {m : Memory} (h : m.wf) (a : Nat) (bs : List Byte) : (m.writeSeq a bs).wf := by
  induction bs generalizing m a with
  | nil => exact h
  | cons b bs ih => exact ih (wf_write h a b) (a + 1)

/-- Outside the bytes written, nothing changes. -/
theorem read_writeSeq_outside (bs : List Byte) {a b : Nat} (h : b < a ∨ a + bs.length ≤ b) :
    (m.writeSeq a bs).read b = m.read b := by
  induction bs generalizing m a with
  | nil => rfl
  | cons v bs ih =>
    simp only [List.length_cons] at h
    rw [writeSeq, ih (m.write a v) (by omega), read_write_other m v (by omega)]

/-- Byte `j` written is byte `j` read. -/
theorem read_writeSeq_inside (bs : List Byte) (a : Nat) {j : Nat} (h : j < bs.length) :
    (m.writeSeq a bs).read (a + j) = bs[j] := by
  induction bs generalizing m a j with
  | nil => simp at h
  | cons v bs ih =>
    cases j with
    | zero =>
      rw [writeSeq, read_writeSeq_outside _ bs (by omega)]
      simp
    | succ j =>
      rw [writeSeq, show a + (j + 1) = a + 1 + j by omega]
      rw [ih (m.write a v) (a + 1) (by simpa using h)]
      rfl

/-! ### Reading a sequence -/

@[simp] theorem length_readSeq (a n : Nat) : (m.readSeq a n).length = n := by
  induction n generalizing a with
  | zero => rfl
  | succ n ih => simp [readSeq, ih]

theorem getElem_readSeq (a n j : Nat) (h : j < (m.readSeq a n).length) :
    (m.readSeq a n)[j] = m.read (a + j) := by
  induction n generalizing a j with
  | zero => simp at h
  | succ n ih =>
    cases j with
    | zero => rfl
    | succ j =>
      have h' : j < (m.readSeq (a + 1) n).length := by simp at h ⊢; omega
      rw [show a + (j + 1) = a + 1 + j by omega, ← ih (a + 1) j h']
      rfl

/-- Two memories that agree on a region read the same sequence there. -/
theorem readSeq_congr {m m' : Memory} {a n : Nat} (h : ∀ j, j < n → m.read (a + j) = m'.read (a + j)) :
    m.readSeq a n = m'.readSeq a n := by
  refine List.ext_getElem (by simp) fun j h1 h2 => ?_
  rw [getElem_readSeq, getElem_readSeq]
  exact h j (by simpa using h1)

/-- What was written as a sequence is read as that sequence. -/
theorem readSeq_writeSeq (a : Nat) (bs : List Byte) : (m.writeSeq a bs).readSeq a bs.length = bs := by
  refine List.ext_getElem (by simp) fun j h1 h2 => ?_
  rw [getElem_readSeq, read_writeSeq_inside m bs a h2]

theorem readSeq_add (a n k : Nat) : m.readSeq a (n + k) = m.readSeq a n ++ m.readSeq (a + n) k := by
  induction n generalizing a with
  | zero => simp [readSeq]
  | succ n ih =>
    rw [show n + 1 + k = (n + k) + 1 by omega]
    simp only [readSeq, List.cons_append, ih (a + 1)]
    rw [show a + 1 + n = a + (n + 1) by omega]

/-! ### The XOR of a region -/

@[simp] theorem xorRegion_zero (a : Nat) (k : Key) : m.xorRegion a k 0 = m := rfl

@[simp] theorem xorRegion_epoch (a : Nat) (k : Key) (n : Nat) : (m.xorRegion a k n).epoch = m.epoch := by
  induction n with
  | zero => rfl
  | succ n ih => simp [xorRegion, ih]

theorem wf_xorRegion {m : Memory} (h : m.wf) (a : Nat) (k : Key) (n : Nat) : (m.xorRegion a k n).wf := by
  induction n with
  | zero => exact h
  | succ n ih => exact wf_write ih _ _

/-- Outside the region, nothing changes. -/
theorem read_xorRegion_outside (k : Key) {a n b : Nat} (h : b < a ∨ a + n ≤ b) :
    (m.xorRegion a k n).read b = m.read b := by
  induction n with
  | zero => rfl
  | succ n ih =>
    rw [xorRegion, read_write_other _ _ (by omega), ih (by omega)]

/-- Byte `j` of the region meets key byte `j mod 4`. -/
theorem read_xorRegion_inside (k : Key) (a : Nat) {n j : Nat} (h : j < n) :
    (m.xorRegion a k n).read (a + j) = m.read (a + j) ^^^ k.byte j := by
  induction n with
  | zero => omega
  | succ n ih =>
    by_cases hj : j = n
    · subst hj
      rw [xorRegion, read_write_same, read_xorRegion_outside m k (by omega)]
    · rw [xorRegion, read_write_other _ _ (by omega), ih (by omega)]

/-! ### Forgetting -/

@[simp] theorem known_forget (a : Nat) : m.forget.known a = none := rfl

theorem wf_forget : m.forget.wf := List.Pairwise.nil

end Memory

end Sys2Proof.Machine
end

