-- ==== Sys2Proof/Laws/Operands.lean ====
section
/-! SUPPORT. One lemma per pure function of the operands: header bytes, key bytes, `Xor4`. -/

namespace Sys2Proof

@[simp] theorem Key.length_bytes (k : Key) : k.bytes.length = 4 := rfl

theorem Key.byte_mod (k : Key) (i : Nat) : k.byte (i % 4) = k.byte i := by
  simp [Key.byte]

theorem Key.getElem_bytes (k : Key) {j : Nat} (h : j < k.bytes.length) : k.bytes[j] = k.byte j := by
  simp only [Key.length_bytes] at h
  match j, h with
  | 0, _ | 1, _ | 2, _ | 3, _ => rfl

/-- The four cases of a key's byte. -/
theorem Key.byte_cases (k : Key) (i : Nat) :
    (i % 4 = 0 ∧ k.byte i = k.k0) ∨ (i % 4 = 1 ∧ k.byte i = k.k1) ∨ (i % 4 = 2 ∧ k.byte i = k.k2) ∨
      (i % 4 = 3 ∧ k.byte i = k.k3) := by
  have h : i % 4 < 4 := Nat.mod_lt _ (by omega)
  rw [← k.byte_mod i]
  generalize i % 4 = r at h
  match r, h with
  | 0, _ | 1, _ | 2, _ | 3, _ => simp [Key.byte]

theorem Key.byte_rot (k : Key) (r i : Nat) : (k.rot r).byte i = k.byte (i + r) := by
  rcases (k.rot r).byte_cases i with ⟨h, e⟩ | ⟨h, e⟩ | ⟨h, e⟩ | ⟨h, e⟩ <;> rw [e] <;>
    simp only [Key.rot] <;> rw [← k.byte_mod, ← k.byte_mod (i + r)] <;> congr 1 <;> omega

theorem Key.byte_xor (k k' : Key) (i : Nat) : (k.xor k').byte i = k.byte i ^^^ k'.byte i := by
  have h : i % 4 < 4 := Nat.mod_lt _ (by omega)
  rw [← Key.byte_mod, ← k.byte_mod, ← k'.byte_mod]
  generalize i % 4 = r at h
  match r, h with
  | 0, _ | 1, _ | 2, _ | 3, _ => rfl

/-- The byte-wise layout of a key's field and of `KEYOUT` agree (30_encoding.md R69). -/
@[simp] theorem Key.ofField_toField (k : Key) : Key.ofField k.toField = k := by
  obtain ⟨k0, k1, k2, k3⟩ := k
  simp only [Key.ofField, Key.toField, Key.mk.injEq]
  refine ⟨?_, ?_, ?_, ?_⟩ <;> ext i hi <;> simp [BitVec.getLsbD_setWidth] <;> grind

namespace Machine

theorem length_be16 (v : BitVec 16) : (be16 v).length = 2 := rfl

theorem length_be64 (v : BitVec 64) : (be64 v).length = 8 := rfl

theorem length_xor4From (k : Key) (i : Nat) (s : List Byte) : (xor4From k i s).length = s.length := by
  induction s generalizing i with
  | nil => rfl
  | cons b s ih => simp [xor4From, ih]

theorem getElem_xor4From (k : Key) (i : Nat) (s : List Byte) {j : Nat} (h : j < s.length) :
    (xor4From k i s)[j]'(by rw [length_xor4From]; exact h) = s[j] ^^^ k.byte (i + j) := by
  induction s generalizing i j with
  | nil => simp at h
  | cons b s ih =>
    cases j with
    | zero => rfl
    | succ j =>
      have h' : j < s.length := by simpa using h
      have := ih (i + 1) h'
      simp only [xor4From, List.getElem_cons_succ]
      rw [this, show i + 1 + j = i + (j + 1) by omega]

@[simp] theorem status_code_ofCode (st : Status) : Status.ofCode st.code = some st := by
  cases st <;> rfl

end Machine

end Sys2Proof
end

