-- ==== Sys2Proof/Laws/State.lean ====
section
/-! SUPPORT. What each named update of the state does to each field, so that no proof unfolds a record update. -/

namespace Sys2Proof.Machine.State

variable (s : State)

/-! ### `withBuf` -/

@[simp] theorem withBuf_cfg (m : Memory) : (s.withBuf m).cfg = s.cfg := rfl
@[simp] theorem withBuf_buf (m : Memory) : (s.withBuf m).buf = m := rfl
@[simp] theorem withBuf_command (m : Memory) : (s.withBuf m).command = s.command := rfl
@[simp] theorem withBuf_response (m : Memory) : (s.withBuf m).response = s.response := rfl
@[simp] theorem withBuf_rs (m : Memory) : (s.withBuf m).rs = s.rs := rfl
@[simp] theorem withBuf_host (m : Memory) : (s.withBuf m).host = s.host := rfl
@[simp] theorem withBuf_received (m : Memory) : (s.withBuf m).received = s.received := rfl

/-! ### `respond` -/

@[simp] theorem respond_cfg (n : BitVec 4) (k : KeyWord) : (s.respond n k).cfg = s.cfg := rfl
@[simp] theorem respond_buf (n : BitVec 4) (k : KeyWord) : (s.respond n k).buf = s.buf := rfl
@[simp] theorem respond_command (n : BitVec 4) (k : KeyWord) : (s.respond n k).command = none := rfl
@[simp] theorem respond_response (n : BitVec 4) (k : KeyWord) : (s.respond n k).response = some ⟨.ok, n, k⟩ := rfl
@[simp] theorem respond_rs (n : BitVec 4) (k : KeyWord) : (s.respond n k).rs = s.rs := rfl
@[simp] theorem respond_host (n : BitVec 4) (k : KeyWord) : (s.respond n k).host = s.host := rfl
@[simp] theorem respond_received (n : BitVec 4) (k : KeyWord) : (s.respond n k).received = s.received := rfl

/-! ### `raise` -/

@[simp] theorem raise_cfg (f : CommandFault) : (s.raise f).cfg = s.cfg := rfl
@[simp] theorem raise_buf (f : CommandFault) : (s.raise f).buf = s.buf := rfl
@[simp] theorem raise_command (f : CommandFault) : (s.raise f).command = none := rfl
@[simp] theorem raise_response (f : CommandFault) : (s.raise f).response = some ⟨f.status, 0#4, 0#32⟩ := rfl
@[simp] theorem raise_rs (f : CommandFault) : (s.raise f).rs = s.rs := rfl
@[simp] theorem raise_host (f : CommandFault) : (s.raise f).host = s.host := rfl
@[simp] theorem raise_received (f : CommandFault) : (s.raise f).received = s.received := rfl

/-! ### `askRandom` -/

@[simp] theorem askRandom_cfg : s.askRandom.cfg = s.cfg := rfl
@[simp] theorem askRandom_buf : s.askRandom.buf = s.buf := rfl
@[simp] theorem askRandom_command : s.askRandom.command = s.command := rfl
@[simp] theorem askRandom_response : s.askRandom.response = s.response := rfl
@[simp] theorem askRandom_rs : s.askRandom.rs = s.rs.advance := rfl
@[simp] theorem askRandom_host : s.askRandom.host = s.host := rfl
@[simp] theorem askRandom_received : s.askRandom.received = s.received := rfl

/-! ### `issue` -/

@[simp] theorem issue_cfg (cw : CommandWord) : (s.issue cw).cfg = s.cfg := rfl
@[simp] theorem issue_buf (cw : CommandWord) : (s.issue cw).buf = s.buf := rfl
@[simp] theorem issue_command (cw : CommandWord) : (s.issue cw).command = some cw := rfl
@[simp] theorem issue_response (cw : CommandWord) : (s.issue cw).response = s.response := rfl
@[simp] theorem issue_rs (cw : CommandWord) : (s.issue cw).rs = s.rs := rfl
@[simp] theorem issue_host (cw : CommandWord) : (s.issue cw).host = s.host := rfl
@[simp] theorem issue_received (cw : CommandWord) : (s.issue cw).received = s.received := rfl

/-! ### `pulseReset` -/

@[simp] theorem pulseReset_cfg : s.pulseReset.cfg = s.cfg := rfl
@[simp] theorem pulseReset_buf : s.pulseReset.buf = s.buf.forget := rfl
@[simp] theorem pulseReset_command : s.pulseReset.command = none := rfl
@[simp] theorem pulseReset_response : s.pulseReset.response = none := rfl
@[simp] theorem pulseReset_rs : s.pulseReset.rs = s.rs := rfl
@[simp] theorem pulseReset_host : s.pulseReset.host = s.host := rfl
@[simp] theorem pulseReset_received : s.pulseReset.received = s.received := rfl

/-! ### `takeResponse` -/

@[simp] theorem takeResponse_cfg : s.takeResponse.cfg = s.cfg := by
  unfold takeResponse; split <;> rfl
@[simp] theorem takeResponse_buf : s.takeResponse.buf = s.buf := by
  unfold takeResponse; split <;> rfl
@[simp] theorem takeResponse_command : s.takeResponse.command = s.command := by
  unfold takeResponse; split <;> rfl
@[simp] theorem takeResponse_response : s.takeResponse.response = none := by
  unfold takeResponse; split <;> simp_all
@[simp] theorem takeResponse_rs : s.takeResponse.rs = s.rs := by
  unfold takeResponse; split <;> rfl
@[simp] theorem takeResponse_host : s.takeResponse.host = s.host := by
  unfold takeResponse; split <;> rfl
@[simp] theorem takeResponse_received :
    s.takeResponse.received = s.received ++ s.response.toList := by
  unfold takeResponse; split <;> simp_all

/-! ### `checked`, the one bounds check -/

theorem fits_iff (addr : Addr) (n : Nat) : s.fits addr n = true ↔ addr.toNat + n ≤ s.cfg.bufSize := by
  simp [fits]

theorem checked_of_fits {s : State} {addr : Addr} {n : Nat} (h : addr.toNat + n ≤ s.cfg.bufSize) (t : State) :
    s.checked addr n t = t := by
  simp [checked, fits, h]

theorem checked_of_not_fits {s : State} {addr : Addr} {n : Nat} (h : s.cfg.bufSize < addr.toNat + n) (t : State) :
    s.checked addr n t = s.raise .invalidArgument := by
  simp [checked, fits, Nat.not_le.mpr h]

/-- Everything the bounds check can do. -/
theorem checked_cases (addr : Addr) (n : Nat) (t : State) :
    (addr.toNat + n ≤ s.cfg.bufSize ∧ s.checked addr n t = t) ∨
      (s.cfg.bufSize < addr.toNat + n ∧ s.checked addr n t = s.raise .invalidArgument) := by
  rcases Nat.lt_or_ge s.cfg.bufSize (addr.toNat + n) with h | h
  · exact .inr ⟨h, checked_of_not_fits h t⟩
  · exact .inl ⟨h, checked_of_fits h t⟩

/-! ### The reset states and the placed command -/

@[simp] theorem resetWith_cfg (c : Config) : (resetWith c).cfg = c := rfl
@[simp] theorem resetWith_command (c : Config) : (resetWith c).command = none := rfl
@[simp] theorem resetWith_response (c : Config) : (resetWith c).response = none := rfl
@[simp] theorem resetWith_host (c : Config) : (resetWith c).host = [] := rfl
@[simp] theorem resetWith_received (c : Config) : (resetWith c).received = [] := rfl
@[simp] theorem resetWith_cells (c : Config) : (resetWith c).buf.cells = [] := rfl
@[simp] theorem fetch_eq : s.fetch = s.command := rfl
@[simp] theorem withFetchWord_command (nbits w : Nat) :
    (s.withFetchWord nbits w).command = some (BitVec.ofNat 104 (w % 2 ^ nbits)) := rfl

end Sys2Proof.Machine.State
end

