-- ==== Sys2Proof/Laws/Commands.lean ====
section
/-! SUPPORT. What asking the random source and making a host move can do, said once. -/

namespace Sys2Proof.Machine

@[simp] theorem RandomSource.asked_advance (rs : RandomSource) : rs.advance.asked = rs.asked + 1 := rfl

@[simp] theorem RandomSource.pending_advance (rs : RandomSource) : rs.advance.pending = rs.pending.tail := rfl

@[simp] theorem RandomSource.answer_cons (a : Option Key) (l : List (Option Key)) (n : Nat) :
    RandomSource.answer ⟨a :: l, n⟩ = a := rfl

theorem State.storeDrawnKey_some {s : State} {k : Key} (h : s.rs.answer = some k) (addr : Addr) :
    s.storeDrawnKey addr =
      (s.askRandom.withBuf (s.buf.writeSeq addr.toNat k.bytes)).respond 0#4 k.toField := by
  simp [State.storeDrawnKey, h]

theorem State.storeDrawnKey_none {s : State} (h : s.rs.answer = none) (addr : Addr) :
    s.storeDrawnKey addr = s.askRandom.raise .randomSourceUnavailable := by
  simp [State.storeDrawnKey, h]

/-- Everything a host write can do. -/
theorem hostWrite_cases (a : Nat) (bytes : List Byte) (s : State) :
    (a + bytes.length ≤ s.cfg.bufSize ∧ hostWrite a bytes s = .next (s.withBuf (s.buf.writeSeq a bytes))) ∨
      (s.cfg.bufSize < a + bytes.length ∧ hostWrite a bytes s = .fault .hostWriteOutsideBuf) := by
  unfold hostWrite
  split
  · next h => exact .inl ⟨h, rfl⟩
  · next h => exact .inr ⟨Nat.not_le.mp h, rfl⟩

theorem Memory.within_write {m : Memory} {size : Nat} (h : m.Within size) {a : Nat} (ha : a < size) (v : Byte) :
    (m.write a v).Within size := by
  intro c hc
  rcases mem_insertCell hc with rfl | hc
  · exact ha
  · exact h c hc

theorem Memory.within_writeSeq {m : Memory} {size : Nat} (h : m.Within size) {a : Nat} (bs : List Byte)
    (ha : a + bs.length ≤ size) : (m.writeSeq a bs).Within size := by
  induction bs generalizing m a with
  | nil => exact h
  | cons b bs ih =>
    simp only [List.length_cons] at ha
    exact ih (Memory.within_write h (by omega) b) (by omega)

theorem Memory.within_xorRegion {m : Memory} {size : Nat} (h : m.Within size) {a : Nat} (k : Key) {n : Nat}
    (ha : a + n ≤ size) : (m.xorRegion a k n).Within size := by
  induction n with
  | zero => exact h
  | succ n ih => exact Memory.within_write (ih (by omega)) (by omega) _

end Sys2Proof.Machine
end

