-- ==== Sys2Proof/Laws/Inversion.lean ====
section
/-! SUPPORT. Said once: everything a command can do, and everything a step can do. Proofs about every operation
or every step start from these, instead of unfolding the machine. -/

namespace Sys2Proof.Machine

theorem hdrLen_cases (len : Len) : hdrLen len = 2 ∨ hdrLen len = 4 ∨ hdrLen len = 10 := by
  unfold hdrLen
  split
  · exact .inl rfl
  · split
    · exact .inr (.inl rfl)
    · exact .inr (.inr rfl)

/-- The state after a `HDR` whose header fits. -/
abbrev State.hdrDone (s : State) (addr : Addr) (len : Len) (opc : Opcode) (mf : Bool) : State :=
  (s.withBuf (s.buf.writeSeq addr.toNat (hdrBytes len opc mf))).respond (BitVec.ofNat 4 (hdrLen len)) 0#32

/-- The state after a `KEYGEN` that got the key `k`. -/
abbrev State.keygenDone (s : State) (addr : Addr) (k : Key) : State :=
  (s.askRandom.withBuf (s.buf.writeSeq addr.toNat k.bytes)).respond 0#4 k.toField

/-- The state after a `MASK` whose region fits. -/
abbrev State.maskDone (s : State) (addr : Addr) (len : Len) (k : Key) : State :=
  (s.withBuf (s.buf.xorRegion addr.toNat k len.toNat)).respond 0#4 0#32

/-- Everything a command can do: its region does not fit; or a header is written; or a `KEYGEN` finds no
entropy; or a key is written; or a region is masked. -/
theorem exec_cases {i : Instr} {s t : State} (h : exec i s = .next t) :
    (s.cfg.bufSize < i.start.toNat + i.regionLen ∧ t = s.raise .invalidArgument) ∨
    i.start.toNat + i.regionLen ≤ s.cfg.bufSize ∧
      ((∃ addr len opc mf, i = .hdr addr len opc mf ∧ t = s.hdrDone addr len opc mf) ∨
       (∃ addr, i = .keygen addr ∧ s.rs.answer = none ∧ t = s.askRandom.raise .randomSourceUnavailable) ∨
       (∃ addr k, i = .keygen addr ∧ s.rs.answer = some k ∧ t = s.keygenDone addr k) ∨
       (∃ addr len k, i = .maskB addr len k ∧ t = s.maskDone addr len k) ∨
       (∃ addr len kw, i = .maskW addr len kw ∧
          t = s.maskDone addr len (keyBytes s.cfg.keyWordByteOrder kw))) := by
  cases i with
  | hdr addr len opc mf =>
    injection h with h
    rcases s.checked_cases addr (hdrLen len) (s.hdrDone addr len opc mf) with ⟨hf, e⟩ | ⟨hf, e⟩
    · exact .inr ⟨hf, .inl ⟨_, _, _, _, rfl, h.symm.trans e⟩⟩
    · exact .inl ⟨hf, h.symm.trans e⟩
  | keygen addr =>
    injection h with h
    rcases s.checked_cases addr keyLen (s.storeDrawnKey addr) with ⟨hf, e⟩ | ⟨hf, e⟩
    · refine .inr ⟨hf, .inr ?_⟩
      cases hk : s.rs.answer with
      | none => exact .inl ⟨_, rfl, rfl, h.symm.trans (e.trans (s.storeDrawnKey_none hk addr))⟩
      | some k => exact .inr (.inl ⟨_, k, rfl, rfl, h.symm.trans (e.trans (s.storeDrawnKey_some hk addr))⟩)
    · exact .inl ⟨hf, h.symm.trans e⟩
  | maskB addr len k =>
    injection h with h
    rcases s.checked_cases addr len.toNat (s.maskDone addr len k) with ⟨hf, e⟩ | ⟨hf, e⟩
    · exact .inr ⟨hf, .inr (.inr (.inr (.inl ⟨_, _, _, rfl, h.symm.trans e⟩)))⟩
    · exact .inl ⟨hf, h.symm.trans e⟩
  | maskW addr len kw =>
    injection h with h
    rcases s.checked_cases addr len.toNat (s.maskDone addr len (keyBytes s.cfg.keyWordByteOrder kw)) with
      ⟨hf, e⟩ | ⟨hf, e⟩
    · exact .inr ⟨hf, .inr (.inr (.inr (.inr ⟨_, _, _, rfl, h.symm.trans e⟩)))⟩
    · exact .inl ⟨hf, h.symm.trans e⟩

/-- Everything a step can do: execute the command on the port; or the host takes a response, writes bytes,
issues a command or pulses reset; or nothing moves. -/
theorem step_cases {s t : State} (h : step s = .next t) :
    (∃ cw, s.command = some cw ∧ exec (decodeWord cw) s = .next t) ∨
    s.command = none ∧
      ((∃ r, s.response = some r ∧ t = s.takeResponse) ∨
       s.response = none ∧
        ((s.host = [] ∧ t = s) ∨
         (∃ a bytes ms, s.host = .write a bytes :: ms ∧ a + bytes.length ≤ s.cfg.bufSize ∧
            t = State.withBuf { s with host := ms } (s.buf.writeSeq a bytes)) ∨
         (∃ cw ms, s.host = .issue cw :: ms ∧ t = State.issue { s with host := ms } cw) ∨
         (∃ ms, s.host = .reset :: ms ∧ t = State.pulseReset { s with host := ms }))) := by
  rcases Option.eq_none_or_eq_some s.command with hc | ⟨cw, hc⟩
  · have hs : step s = hostTurn s := by simp [step, hc]
    rw [hs] at h
    refine .inr ⟨hc, ?_⟩
    unfold hostTurn at h
    split at h
    · next r hr => injection h with h; exact .inl ⟨r, hr, h.symm⟩
    · next hr =>
      refine .inr ⟨hr, ?_⟩
      split at h
      · next hm => injection h with h; exact .inl ⟨hm, h.symm⟩
      · next m ms hm =>
        cases m with
        | write a bytes =>
          rcases hostWrite_cases a bytes { s with host := ms } with ⟨g, e⟩ | ⟨_, e⟩
          · have := e.symm.trans h
            injection this with this
            exact .inr (.inl ⟨a, bytes, ms, hm, g, this.symm⟩)
          · have := e.symm.trans h
            contradiction
        | issue cw => injection h with h; exact .inr (.inr (.inl ⟨cw, ms, hm, h.symm⟩))
        | reset => injection h with h; exact .inr (.inr (.inr ⟨ms, hm, h.symm⟩))
  · have hs : step s = exec (decodeWord cw) s := by simp [step, hc]
    exact .inl ⟨cw, hc, hs.symm.trans h⟩

end Sys2Proof.Machine
end

