-- ==== Sys2Proof/Laws/PerInstr.lean ====
section
/-! SUPPORT. The select code of every operation's command word (30_encoding.md R62, R63). -/

namespace Sys2Proof.Laws

/-- The low two bits of a packed command are its `CMD`. -/
theorem cmd_toWord (c : Command) : c.toWord.extractLsb' 0 2 = c.cmd := by
  unfold Command.toWord
  ext i hi
  have : i = 0 ∨ i = 1 := by omega
  rcases this with rfl | rfl <;> simp

/-- The command word of the operation carries the operation's select code. -/
def SelectCode.Statement (i : Instr) : Prop := (encodeWord i).extractLsb' 0 2 = i.selectCode

theorem SelectCode.hdr (addr : Addr) (len : Len) (opc : Opcode) (mf : Bool) :
    SelectCode.Statement (.hdr addr len opc mf) := cmd_toWord _

theorem SelectCode.keygen (addr : Addr) : SelectCode.Statement (.keygen addr) := cmd_toWord _

theorem SelectCode.maskB (addr : Addr) (len : Len) (key : Key) :
    SelectCode.Statement (.maskB addr len key) := cmd_toWord _

theorem SelectCode.maskW (addr : Addr) (len : Len) (kw : KeyWord) :
    SelectCode.Statement (.maskW addr len kw) := cmd_toWord _

end Sys2Proof.Laws
end

