-- ==== Sys2Proof/Tests/Slice0.lean ====
section
/-! SUPPORT. Tests of the model against the spec's own encodings and vectors (95_test_vectors.md, named by their
ids there), the smoke tests of WellFormed, and a witness for the hypotheses of every statement. -/

namespace Sys2Proof.Tests

open Sys2Proof Sys2Proof.Machine

/-! ### Small states -/

/-- An idle instance of `size` bytes whose `BUF` begins with the given bytes, and the answers to come. -/
def stateOf (size : Nat) (order : ByteOrder) (bytes : List Byte) (answers : List (Option Key)) : State where
  cfg := ⟨size, order⟩
  buf := Memory.writeSeq ⟨[], 0⟩ 0 bytes
  command := none
  response := none
  rs := ⟨answers, 0⟩
  host := []
  received := []

/-- `BUF_SIZE = 16`, `BUF[a] = 0x10 + a` (95_test_vectors.md sections 4.1, 4.2). -/
def s16 (answers : List (Option Key)) : State :=
  stateOf 16 .little
    [0x10, 0x11, 0x12, 0x13, 0x14, 0x15, 0x16, 0x17, 0x18, 0x19, 0x1A, 0x1B, 0x1C, 0x1D, 0x1E, 0x1F] answers

def webSocket : List Byte := [0x57, 0x65, 0x62, 0x53, 0x6F, 0x63, 0x6B, 0x65, 0x74, 0x21]

def keyHello : Key := ⟨0x37, 0xFA, 0x21, 0x3D⟩

/-- What is seen of an outcome: the response and some bytes of `BUF`. -/
def seen (o : Host.Outcome State Fault Refusal) (a n : Nat) : Option (Option Response × List Byte) :=
  match o with
  | .next t => some (t.response, t.buf.readSeq a n)
  | _ => none

def okN (n : BitVec 4) : Option Response := some ⟨.ok, n, 0⟩
def bad : Option Response := some ⟨.invalidArgument, 0, 0⟩

/-! ### Decoding: words written out from the fields of 30_encoding.md R63 -/

/-- `KEY` 0, `LEN` 10, `ADDR` 0, bit 7 clear, `OPC` 0001, `MF` 1, `CMD` 00. -/
theorem test_decode_hdr :
    decodeWord (0#32 ++ 10#32 ++ 0#32 ++ 0b0#1 ++ 0b0001#4 ++ 0b1#1 ++ 0b00#2) = .hdr 0 10 1 true := by decide

/-- Ignored fields set: `KEY`, `LEN`, bit 7, `OPC`, `MF` of a `KEYGEN` (R64). -/
theorem test_decode_keygen_ignores :
    decodeWord (0xFFFFFFFF#32 ++ 0xFFFFFFFF#32 ++ 2#32 ++ 0b1#1 ++ 0b1111#4 ++ 0b1#1 ++ 0b01#2) =
      .keygen 2 := by decide

theorem test_decode_maskB :
    decodeWord (0x3D21FA37#32 ++ 5#32 ++ 6#32 ++ 0b0#1 ++ 0b0000#4 ++ 0b0#1 ++ 0b10#2) =
      .maskB 6 5 keyHello := by decide

theorem test_decode_maskW :
    decodeWord (0x3D21FA37#32 ++ 5#32 ++ 6#32 ++ 0b0#1 ++ 0b0000#4 ++ 0b0#1 ++ 0b11#2) =
      .maskW 6 5 0x3D21FA37 := by decide

/-- The words of 95_test_vectors.md section 4.4, from the encoder. -/
theorem test_encode_words :
    encodeWord (.hdr 12 200 2 false) = 0x00000000000000C80000000C10#104 ∧
    encodeWord (.keygen 2) = 0x00000000000000000000000201#104 ∧
    encodeWord (.maskB 14 10 ⟨0xA1, 0xB2, 0xC3, 0xD4⟩) = 0xD4C3B2A10000000A0000000E02#104 ∧
    encodeWord (.maskW 6 5 0x3D21FA37) = 0x3D21FA37000000050000000603#104 := by decide

theorem test_decode_bytes :
    (decode [0x01, 0x02, 0x00, 0x00, 0x00, 0x00, 0x00, 0x00, 0x00, 0x00, 0x00, 0x00, 0x00]).toOption =
      some (.keygen 2) := by decide

theorem test_decode_table_word :
    decodeTableWord 8 0x3 = some (.maskW 0 0 0) ∧ decodeTableWord 104 0x201 = some (.keygen 2) := by decide

/-- Response words of section 4.4 (R67). -/
theorem test_response_words :
    Response.toWord ⟨.ok, 10, 0⟩ = 0x0000000028#38 ∧
    Response.toWord ⟨.ok, 0, 0x3D21FA37⟩ = 0x0F487E8DC0#38 ∧
    Response.toWord ⟨.randomSourceUnavailable, 0, 0⟩ = 0x0000000002#38 := by decide

/-! ### WellFormed: an ill-formed line for each check, and a well-formed one -/

theorem test_wf_accepts : Line.wellFormed (.hdr 4294967295 4294967295 (.number 15) 1) = true := by decide
theorem test_wf_refuses_address : Line.wellFormed (.keygen 4294967296) = false := by decide
theorem test_wf_refuses_length : Line.wellFormed (.hdr 0 4294967296 (.number 1) 0) = false := by decide
theorem test_wf_refuses_opcode : Line.wellFormed (.hdr 0 0 (.number 16) 0) = false := by decide
theorem test_wf_refuses_flag : Line.wellFormed (.hdr1 0 0 2) = false := by decide
theorem test_wf_refuses_key_byte : Line.wellFormed (.maskB 0 0 0 0 0 256) = false := by decide
theorem test_wf_refuses_key_word : Line.wellFormed (.maskW 0 0 4294967296) = false := by decide
theorem test_wf_refuses_host_byte : Line.wellFormed (.hostWrite 0 [255, 256]) = false := by decide
theorem test_assemble_name :
    (assemble (.hdr 0 5 (.name .ping) 0)).toOption = some (.command (.hdr 0 5 9 false)) := by decide

/-! ### HDR (section 3) -/

/-- V-H8, V-H10, V-H18, V-H22, V-H29. -/
theorem test_header_bytes :
    hdrBytes 126 1 false = [0x81, 0x7E, 0x00, 0x7E] ∧ hdrBytes 127 1 true = [0x81, 0xFE, 0x00, 0x7F] ∧
    hdrBytes 70000 1 true = [0x81, 0xFF, 0, 0, 0, 0, 0, 1, 0x11, 0x70] ∧
    hdrBytes 4294967295 1 true = [0x81, 0xFF, 0, 0, 0, 0, 0xFF, 0xFF, 0xFF, 0xFF] ∧
    hdrBytes 5 0xF true = [0x8F, 0x85] := by decide

/-- V-H33. -/
theorem test_hdr_top :
    seen (exec (.hdr 12 200 2 false) (s16 [])) 10 6 =
      some (okN 4, [0x1A, 0x1B, 0x82, 0x7E, 0x00, 0xC8]) := by decide

/-- V-H34. -/
theorem test_hdr_too_long :
    seen (exec (.hdr 13 200 2 false) (s16 [])) 12 4 = some (bad, [0x1C, 0x1D, 0x1E, 0x1F]) := by decide

/-! ### KEYGEN (section 4.1) -/

/-- V-K1, `KEYOUT = 0x3D21FA37`. -/
theorem test_keygen :
    seen (exec (.keygen 2) (s16 [some keyHello])) 1 6 =
      some (some ⟨.ok, 0, 0x3D21FA37⟩, [0x11, 0x37, 0xFA, 0x21, 0x3D, 0x16]) := by decide

/-- V-K3 and V-K5. -/
theorem test_keygen_faults :
    seen (exec (.keygen 12) (s16 [none])) 12 1 = some (some ⟨.randomSourceUnavailable, 0, 0⟩, [0x1C]) ∧
    seen (exec (.keygen 13) (s16 [none])) 13 1 = some (bad, [0x1D]) := by decide

/-! ### MASK (sections 4.2, 4.3) -/

/-- V-M9, and V-M13. -/
theorem test_maskB :
    seen (exec (.maskB 0 10 ⟨0x12, 0x34, 0x56, 0x78⟩) (stateOf 10 .little webSocket [])) 0 10 =
      some (okN 0, [0x45, 0x51, 0x34, 0x2B, 0x7D, 0x57, 0x3D, 0x1D, 0x66, 0x15]) ∧
    seen (exec (.maskB 12 5 ⟨1, 2, 3, 4⟩) (s16 [])) 12 4 = some (bad, [0x1C, 0x1D, 0x1E, 0x1F]) := by decide

/-- V-W5, and V-W4 under `big`. -/
theorem test_maskW :
    seen (exec (.maskW 0 10 0x12345678) (stateOf 10 .little webSocket [])) 0 10 =
      some (okN 0, [0x2F, 0x33, 0x56, 0x41, 0x17, 0x35, 0x5F, 0x77, 0x0C, 0x77]) ∧
    seen (exec (.maskW 0 10 0x12345678) (stateOf 10 .big webSocket [])) 0 10 =
      some (okN 0, [0x45, 0x51, 0x34, 0x2B, 0x7D, 0x57, 0x3D, 0x1D, 0x66, 0x15]) := by decide

/-! ### Frames (section 5) -/

/-- P1: `FRAME.KEY 0, 6, 5, 1, 37:FA:21:3D`. -/
def stateP1 : State := stateOf 11 .little [0xEE, 0xEE, 0xEE, 0xEE, 0xEE, 0xEE, 0x48, 0x65, 0x6C, 0x6C, 0x6F] []

theorem test_frame_key :
    seen (runOperation (.frameKey 0 6 5 1 keyHello) stateP1) 0 11 =
      some (okN 0, [0x81, 0x85, 0x37, 0xFA, 0x21, 0x3D, 0x7F, 0x9F, 0x4D, 0x51, 0x58]) := by decide

/-- P2: `FRAME.GEN 0, 14, 10, 1`. -/
def stateP2 (a : Option Key) : State :=
  stateOf 24 .little ([0xEE, 0xEE, 0xEE, 0xEE, 0xEE, 0xEE, 0xEE, 0xEE, 0xEE, 0xEE, 0xEE, 0xEE, 0xEE, 0xEE] ++
    [0, 1, 2, 3, 4, 5, 6, 7, 8, 9]) [a]

theorem test_frame_gen :
    seen (runOperation (.frameGen 0 14 10 1) (stateP2 (some ⟨0xA1, 0xB2, 0xC3, 0xD4⟩))) 0 24 =
      some (okN 0, [0x81, 0x8A, 0xA1, 0xB2, 0xC3, 0xD4, 0xEE, 0xEE, 0xEE, 0xEE, 0xEE, 0xEE, 0xEE, 0xEE,
        0xA1, 0xB3, 0xC1, 0xD7, 0xA5, 0xB7, 0xC5, 0xD3, 0xA9, 0xBB]) := by decide

/-! ### The machine -/

/-- From reset a command put on the port runs in the next step (R131: nothing else was going to happen). -/
theorem test_first_step_after_reset :
    seen (step (State.reset.withFetchWord 104 0x00000000000000C80000000C10)) 12 4 =
      some (okN 4, [0x82, 0x7E, 0x00, 0xC8]) := by decide

/-- The host writes, then issues a command, which runs, and takes the response. -/
def hostRun : State :=
  { s16 [] with host := [.write 0 [0xFF], .issue (encodeWord (.maskB 0 1 ⟨0x0F, 0, 0, 0⟩))] }

theorem test_host_run :
    (match Host.Core.run Sys2Proof.core 4 hostRun with
      | .next t => some (State.result t).2
      | _ => none) = some [⟨.ok, 0, 0⟩] ∧
    seen (Host.Core.run Sys2Proof.core 4 hostRun) 0 2 = some (none, [0xF0, 0x11]) := by decide

/-! ### Witnesses: concrete states and operands that meet a statement's hypotheses together -/

theorem witness_CommandWordFields :
    (0x00#104).extractLsb' 0 2 = 0b00#2 ∧ (0x01#104).extractLsb' 0 2 = 0b01#2 ∧
    (0x02#104).extractLsb' 0 2 = 0b10#2 ∧ (0x03#104).extractLsb' 0 2 = 0b11#2 := by decide

/-- Two different `KEYGEN` words that agree in `CMD` and `ADDR` only. -/
theorem witness_IgnoredFieldsHaveNoEffect :
    let cw : CommandWord := 0x00000000000000000000000201#104
    let cw' : CommandWord := 0xFFFFFFFFFFFFFFFF00000002FD#104
    cw ≠ cw' ∧ (Command.ofWord cw).cmd = (Command.ofWord cw').cmd ∧
    (Command.ofWord cw).addr = (Command.ofWord cw').addr ∧
    ((Command.ofWord cw).cmd ≠ 0b01#2 → (Command.ofWord cw).len = (Command.ofWord cw').len) ∧
    ((Command.ofWord cw).cmd = 0b00#2 →
      (Command.ofWord cw).opc = (Command.ofWord cw').opc ∧ (Command.ofWord cw).mf = (Command.ofWord cw').mf) ∧
    ((Command.ofWord cw).cmd = 0b10#2 ∨ (Command.ofWord cw).cmd = 0b11#2 →
      (Command.ofWord cw).key = (Command.ofWord cw').key) := by decide

/-- The same for two `HDR` words that differ in `KEY` and bit 7. -/
theorem witness_IgnoredFieldsHaveNoEffect_hdr :
    let cw : CommandWord := 0x000000000000000A000000000C#104
    let cw' : CommandWord := 0xFFFFFFFF0000000A000000008C#104
    cw ≠ cw' ∧ (Command.ofWord cw).cmd = (Command.ofWord cw').cmd ∧
    (Command.ofWord cw).addr = (Command.ofWord cw').addr ∧
    ((Command.ofWord cw).cmd ≠ 0b01#2 → (Command.ofWord cw).len = (Command.ofWord cw').len) ∧
    ((Command.ofWord cw).cmd = 0b00#2 →
      (Command.ofWord cw).opc = (Command.ofWord cw').opc ∧ (Command.ofWord cw).mf = (Command.ofWord cw').mf) ∧
    ((Command.ofWord cw).cmd = 0b10#2 ∨ (Command.ofWord cw).cmd = 0b11#2 →
      (Command.ofWord cw).key = (Command.ofWord cw').key) := by decide

theorem witness_OnlyThirteenBytesDecode :
    (List.replicate 12 (0 : Byte)).length < 13 ∧ (List.replicate 13 (0 : Byte)).length = 13 ∧
    13 < (List.replicate 14 (0 : Byte)).length := by decide

theorem witness_AssembledHdrKeepsItsNumbers :
    (4294967295 < 2 ^ 32 ∧ 0 < 2 ^ 32 ∧ 15 < 16 ∧ 1 < 2) ∧
    ¬ (4294967296 < 2 ^ 32 ∧ 0 < 2 ^ 32 ∧ 15 < 16 ∧ 1 < 2) := by decide

theorem witness_ResponseWordFields : (3#38).extractLsb' 0 2 = 3#2 := by decide

/-- The boundaries 125, 126, 65535, 65536 of HeaderLengthAndIndicator and HeaderBitLayout. -/
theorem witness_header_classes :
    (125 : Len).toNat < 126 ∧ (126 ≤ (126 : Len).toNat ∧ (126 : Len).toNat < 65536) ∧
    (126 ≤ (65535 : Len).toNat ∧ (65535 : Len).toNat < 65536) ∧ 65536 ≤ (65536 : Len).toNat := by decide

theorem witness_HeaderGivesItsOperandsBack :
    hdrBytes 126 1 true = hdrBytes 126 1 true ∧ (125 : Len).toNat ≤ (126 : Len).toNat := by decide

theorem witness_HeaderIsMinimal :
    hdrBytes 126 1 false = 0x81 :: 0x7E :: [0x00, 0x7E] ∧ (0x7E : Byte).extractLsb' 0 7 = 126#7 ∧
    hdrBytes 65536 1 false = 0x81 :: 0x7F :: [0, 0, 0, 0, 0, 1, 0, 0] ∧
    (0x7F : Byte).extractLsb' 0 7 = 127#7 := by decide

/-- A header that ends at the top of `BUF`, and one a byte too high. -/
theorem witness_HdrWritesHeader :
    (12 : Addr).toNat + hdrLen 200 ≤ (s16 []).cfg.bufSize ∧
    (s16 []).cfg.bufSize < (13 : Addr).toNat + hdrLen 200 := by decide

theorem witness_RepeatedHdrLeavesBufAsItWas : ∃ t, exec (.hdr 12 200 2 false) (s16 []) = .next t := ⟨_, rfl⟩

theorem witness_KeygenWritesDrawnKey :
    ((12 : Addr).toNat + 4 ≤ (s16 [some keyHello]).cfg.bufSize ∧
      (s16 [some keyHello]).rs.answer = some keyHello) ∧
    ((12 : Addr).toNat + 4 ≤ (s16 [none]).cfg.bufSize ∧ (s16 [none]).rs.answer = none) ∧
    (s16 [none]).cfg.bufSize < (13 : Addr).toNat + 4 := by decide

theorem witness_EveryAnswerIsPossibleTwice : (12 : Addr).toNat + 4 ≤ (s16 []).cfg.bufSize := by decide

theorem witness_OnlyKeygenAsksTheRandomSource :
    ∃ t, exec (.keygen 12) (s16 [some keyHello]) = .next t ∧ t.rs ≠ (s16 [some keyHello]).rs :=
  ⟨_, rfl, by decide⟩

/-- A region that ends at the top of `BUF`, and one a byte too long; for MaskBXorsItsRegion under either byte
order for MaskWXorsItsRegion. -/
theorem witness_mask_regions :
    (12 : Addr).toNat + (4 : Len).toNat ≤ (s16 []).cfg.bufSize ∧
    (s16 []).cfg.bufSize < (12 : Addr).toNat + (5 : Len).toNat ∧
    (s16 []).cfg.keyWordByteOrder = .little ∧ (stateOf 16 .big [] []).cfg.keyWordByteOrder = .big ∧
    (12 : Addr).toNat + (4 : Len).toNat ≤ (stateOf 16 .big [] []).cfg.bufSize := by decide

theorem witness_XorTransformLaws :
    OutsideRegion (2 : Addr).toNat (4 : Len).toNat 1 ∧ OutsideRegion (2 : Addr).toNat (4 : Len).toNat 6 ∧
    [(0 : Byte)].length = 1 ∧ ∃ t, exec (.maskB 2 4 keyHello) (s16 []) = .next t :=
  ⟨by decide, by decide, rfl, _, rfl⟩

theorem witness_MaskTwiceRestores :
    (4 ≤ [(1 : Byte), 2, 3, 4].length ∧
      xor4 (xor4 [1, 2, 3, 4] ⟨0, 0, 0, 0⟩) ⟨0, 0, 0, 0⟩ = xor4 [1, 2, 3, 4] ⟨0, 0, 0, 0⟩) ∧
    (∃ k, Instr.maskB 12 4 keyHello = .maskB 12 4 k) ∧
    (12 : Addr).toNat + (4 : Len).toNat ≤ (s16 []).cfg.bufSize ∧
    ∃ t t' : State, exec (.maskB 12 4 keyHello) (s16 []) = .next t ∧ t'.cfg = t.cfg ∧
      ∀ j, j < (4 : Len).toNat → t'.buf.read ((12 : Addr).toNat + j) = t.buf.read ((12 : Addr).toNat + j) :=
  ⟨by decide, ⟨_, rfl⟩, by decide, _, _, rfl, rfl, fun _ _ => rfl⟩

theorem witness_SplitMaskingRotatesTheKey :
    (3 : Addr).toNat = (0 : Addr).toNat + (3 : Len).toNat ∧ (10 : Len).toNat = (3 : Len).toNat + (7 : Len).toNat ∧
    (0 : Addr).toNat + (10 : Len).toNat ≤ (stateOf 10 .little webSocket []).cfg.bufSize := by decide

/-- V-M14, V-M15, V-M17. -/
theorem witness_EmptyMaskAndZeroKey :
    (16 : Addr).toNat ≤ (s16 []).cfg.bufSize ∧ (s16 []).cfg.bufSize < (17 : Addr).toNat ∧
    (0 : Addr).toNat + (16 : Len).toNat ≤ (s16 []).cfg.bufSize := by decide

theorem witness_AddressSumsDoNotWrap : State.reset.cfg.Wf ∧ (s16 []).cfg.Wf := by decide

theorem witness_faults :
    (∃ t r, exec (.maskB 12 5 keyHello) (s16 []) = .next t ∧ t.response = some r ∧
      r.status = .invalidArgument ∧ r.status ≠ .ok) ∧
    ∃ t r, exec (.keygen 12) (s16 [none]) = .next t ∧ t.response = some r ∧
      r.status = .randomSourceUnavailable :=
  ⟨⟨_, _, rfl, rfl, by decide, by decide⟩, _, _, rfl, rfl, by decide⟩

theorem witness_OperationsStayInTheirRegion :
    OutsideRegion (Instr.keygen 12).start.toNat (Instr.keygen 12).regionLen 11 ∧
    OutsideRegion (Instr.keygen 12).start.toNat (Instr.keygen 12).regionLen 16 ∧
    (s16 [some keyHello]).CanDo (.keygen 12) ∧ 3 < (Instr.keygen 12).regionLen ∧
    (stateOf 16 .little [] [some keyHello]).cfg = (s16 [some keyHello]).cfg ∧
    (stateOf 16 .little [] [some keyHello]).rs.answer = (s16 [some keyHello]).rs.answer ∧
    ∃ t t', exec (.keygen 12) (s16 [some keyHello]) = .next t ∧
      exec (.keygen 12) (stateOf 16 .little [] [some keyHello]) = .next t' :=
  ⟨by decide, by decide, ⟨by decide, fun _ _ => by decide⟩, by decide, rfl, rfl, _, _, rfl, rfl⟩

/-- Two states that differ in every other byte of `BUF`. -/
theorem witness_NewByteDependsOnlyOnItsOldValue :
    (stateOf 16 .little [0x10] []).cfg = (s16 []).cfg ∧
    (stateOf 16 .little [0x10] []).rs.answer = (s16 []).rs.answer ∧
    (stateOf 16 .little [0x10] []).buf.read 0 = (s16 []).buf.read 0 ∧
    ∃ t t', exec (.maskB 0 4 keyHello) (s16 []) = .next t ∧
      exec (.maskB 0 4 keyHello) (stateOf 16 .little [0x10] []) = .next t' :=
  ⟨rfl, rfl, by decide, _, _, rfl, rfl⟩

/-- Two states that differ in the host and the ports. -/
theorem witness_BufIsTheOnlyState :
    hostRun ≠ s16 [] ∧ hostRun.cfg = (s16 []).cfg ∧ hostRun.buf = (s16 []).buf ∧
    hostRun.rs.answer = (s16 []).rs.answer := ⟨by decide, rfl, rfl, rfl⟩

theorem witness_RunWithoutFaultStaysSo :
    (s16 [some keyHello]).CanDo (.keygen 12) ∧ (s16 [some keyHello]).AllOk :=
  ⟨⟨by decide, fun _ _ => by decide⟩, ⟨fun r h => (by cases h), fun r h => (by cases h)⟩⟩

theorem witness_ResetMeetsTheInvariant :
    (⟨0, .big⟩ : Config).Wf ∧ (⟨4294967296, .little⟩ : Config).Wf := by decide

/-- A state with something in every field meets the invariant, and steps. -/
def busy : State :=
  { s16 [some keyHello] with
    command := some (encodeWord (.keygen 12)), host := [.write 0 [1]], received := [⟨.ok, 4, 0⟩] }

theorem witness_StepKeepsTheInvariant : busy.Inv ∧ ∃ t, step busy = .next t :=
  ⟨⟨by decide, by decide, by decide, .inr rfl, fun r h => (by cases h), by decide⟩, _, rfl⟩

theorem witness_port_command :
    busy.command = some (encodeWord (.keygen 12)) := rfl

theorem witness_ResponseIsTakenBeforeTheNextCommand :
    (∃ r, ({ s16 [] with response := okN 4 } : State).response = some r) ∧
    ∃ t cw, ({ s16 [] with host := [.issue 0x201] } : State).command = none ∧
      step { s16 [] with host := [.issue 0x201] } = .next t ∧ t.command = some cw :=
  ⟨⟨_, rfl⟩, _, _, rfl, rfl, rfl⟩

/-- A host write that ends at the top of `BUF`, and one a byte too long. -/
theorem witness_HostWritesBetweenCommands :
    (s16 []).command = none ∧ (s16 []).response = none ∧
    ({ s16 [] with host := [.write 14 [1, 2]] } : State).host = .write 14 [1, 2] :: [] ∧
    14 + [(1 : Byte), 2].length ≤ (s16 []).cfg.bufSize ∧
    (s16 []).cfg.bufSize < 14 + [(1 : Byte), 2, 3].length := by decide

/-- A write of no bytes at `BUF_SIZE` changes nothing, and one above it stops the model (log 20's choice). -/
theorem test_empty_host_write :
    hostWrite 16 [] (s16 []) = .next (s16 []) ∧ hostWrite 17 [] (s16 []) = .fault .hostWriteOutsideBuf :=
  ⟨rfl, rfl⟩

theorem witness_IdleBlockWaits :
    State.reset.command = none ∧ State.reset.response = none ∧ State.reset.host = [] := by decide

theorem witness_ResetBetweenCommands :
    ({ s16 [] with host := [.reset] } : State).command = none ∧
    ({ s16 [] with host := [.reset] } : State).response = none ∧
    ({ s16 [] with host := [.reset] } : State).host = .reset :: [] := by decide

theorem witness_StepKeepsTheParameters : ∃ t, step (s16 []) = .next t := ⟨_, rfl⟩

theorem witness_OnlyAHostWriteOutsideBufStops :
    ∃ f, step { s16 [] with host := [.write 15 [1, 2]] } = .fault f := ⟨_, rfl⟩

theorem witness_IssuedCommandRunsAndReturns :
    ({ s16 [] with host := [.issue (encodeWord (.keygen 2))] } : State).command = none ∧
    ({ s16 [] with host := [.issue (encodeWord (.keygen 2))] } : State).response = none ∧
    ({ s16 [] with host := [.issue (encodeWord (.keygen 2))] } : State).host =
      .issue (encodeWord (.keygen 2)) :: [] := by decide

theorem witness_EqualKnowledgeIsEqualMemory :
    (s16 []).buf.wf ∧ (s16 []).buf.epoch = (s16 [none]).buf.epoch ∧
    ∀ a, (s16 []).buf.known a = (s16 [none]).buf.known a := ⟨by decide, rfl, fun _ => rfl⟩

theorem witness_FrameLength : webSocket.length < 2 ^ 32 := by decide

/-- For PlainFrameIsBuilt: payload directly behind the header. -/
theorem witness_PlainFrameIsBuilt :
    (0 : Addr).toNat + hdrLen 10 ≤ (stateOf 12 .little webSocket []).cfg.bufSize ∧
    (2 : Addr).toNat + (10 : Len).toNat ≤ (stateOf 12 .little webSocket []).cfg.bufSize ∧
    DisjointRegions (0 : Addr).toNat (hdrLen 10) (2 : Addr).toNat (10 : Len).toNat := by decide

/-- P1 of 95_test_vectors.md: the payload directly behind the key, the frame all of `BUF`. -/
theorem witness_KeyedFrameIsBuilt :
    (0 : Addr).toNat + hdrLen 5 + 4 ≤ stateP1.cfg.bufSize ∧ (6 : Addr).toNat + (5 : Len).toNat ≤ stateP1.cfg.bufSize ∧
    DisjointRegions (0 : Addr).toNat (hdrLen 5 + 4) (6 : Addr).toNat (5 : Len).toNat := by decide

/-- P2. -/
theorem witness_GeneratedFrameIsBuilt :
    (stateP2 (some keyHello)).cfg.Wf ∧
    (0 : Addr).toNat + hdrLen 10 + 4 ≤ (stateP2 (some keyHello)).cfg.bufSize ∧
    (14 : Addr).toNat + (10 : Len).toNat ≤ (stateP2 (some keyHello)).cfg.bufSize ∧
    DisjointRegions (0 : Addr).toNat (hdrLen 10 + 4) (14 : Addr).toNat (10 : Len).toNat ∧
    (stateP2 (some keyHello)).rs.answer = some keyHello := by decide

theorem witness_GeneratedFrameIsBuilt_key :
    ∃ t, runOperation (.frameGen 0 14 10 1) (stateP2 (some keyHello)) = .next t ∧
      keyHello.bytes = t.buf.readSeq ((0 : Addr).toNat + hdrLen 10) 4 := ⟨_, rfl, by decide⟩

/-- Each clause of SequenceStopsAtTheFirstFault at the edge of `BUF`. -/
theorem witness_SequenceStopsAtTheFirstFault :
    (s16 [none]).cfg.Wf ∧ (s16 [none]).cfg.bufSize < (15 : Addr).toNat + hdrLen 10 ∧
    ((14 : Addr).toNat + hdrLen 10 < 2 ^ 32 ∧ (14 : Addr).toNat + hdrLen 10 ≤ (s16 [none]).cfg.bufSize ∧
      (s16 [none]).cfg.bufSize < (14 : Addr).toNat + hdrLen 10 + 4) ∧
    ((10 : Addr).toNat + hdrLen 10 + 4 ≤ (s16 [none]).cfg.bufSize ∧ (s16 [none]).rs.answer = none) ∧
    ((10 : Addr).toNat + hdrLen 10 + 4 ≤ (s16 [some keyHello]).cfg.bufSize ∧
      (s16 [some keyHello]).rs.answer = some keyHello ∧
      (s16 [some keyHello]).cfg.bufSize < (7 : Addr).toNat + (10 : Len).toNat) := by decide

theorem witness_HdrAndMaskCommute :
    (12 : Addr).toNat + hdrLen 200 ≤ (s16 []).cfg.bufSize ∧ (2 : Addr).toNat + (10 : Len).toNat ≤ (s16 []).cfg.bufSize ∧
    DisjointRegions (12 : Addr).toNat (hdrLen 200) (2 : Addr).toNat (10 : Len).toNat := by decide

end Sys2Proof.Tests
end

/-! The statements of 00_scope.md: the state's invariant holds at reset and every step keeps it, and address
sums do not wrap. -/

namespace Sys2Proof.Machine

/-! ### Regions -/

/-- A header has the length its length class gives (40_header_composer.md R76, R79). -/
@[simp] theorem length_hdrBytes (len : Len) (opc : Opcode) (mf : Bool) :
    (hdrBytes len opc mf).length = hdrLen len := by
  unfold hdrBytes hdrLen
  split
  · rfl
  · split <;> rfl

/-- Every operation makes the same bounds check first (20_memory.md R35): a region that ends above `BUF_SIZE` is
answered `InvalidArgument`, with nothing else done. -/
theorem exec_of_not_fits {i : Instr} {s : State} (h : s.cfg.bufSize < i.start.toNat + i.regionLen) :
    exec i s = .next (s.raise .invalidArgument) := by
  cases i with
  | hdr => exact congrArg _ (State.checked_of_not_fits h _)
  | keygen => exact congrArg _ (State.checked_of_not_fits h _)
  | maskB => exact congrArg _ (State.checked_of_not_fits h _)
  | maskW => exact congrArg _ (State.checked_of_not_fits h _)

/-- From the top address on, a region of two bytes or more fits in no `BUF`: the sum, a natural number, passes
`2^32` (R9). -/
theorem bufSize_lt_top_add {s : State} (hs : s.cfg.Wf) {n : Nat} (hn : 1 < n) :
    s.cfg.bufSize < (0xFFFFFFFF#32 : Addr).toNat + n := by
  have htop : (0xFFFFFFFF#32 : Addr).toNat = 2 ^ 32 - 1 := rfl
  omega

/-! ### Responses of the kind R66 describes -/

/-- `OK` with the length of a header. -/
theorem Response.wf_hdrLen (len : Len) : Response.Wf ⟨.ok, BitVec.ofNat 4 (hdrLen len), 0#32⟩ := by
  rcases hdrLen_cases len with h | h | h <;> rw [h] <;> decide

/-- `OK` with `N = 0` and any key. -/
theorem Response.wf_ok (k : KeyWord) : Response.Wf ⟨.ok, 0#4, k⟩ := ⟨.inl rfl, .inl rfl⟩

/-- Any status with zeros. -/
theorem Response.wf_zero (st : Status) : Response.Wf ⟨st, 0#4, 0#32⟩ := ⟨.inl rfl, .inr rfl⟩

/-! ### What each update of the state needs to keep the invariant -/

namespace State.Inv

theorem resetWith {c : Config} (hc : c.Wf) : (State.resetWith c).Inv where
  cfgWf := hc
  bufWf := List.Pairwise.nil
  bufWithin := by simp
  oneAtATime := .inl rfl
  responseWf := by simp
  receivedWf := by simp

variable {s : State}

theorem withBuf (h : s.Inv) {m : Memory} (hwf : m.wf) (hin : m.Within s.cfg.bufSize) : (s.withBuf m).Inv :=
  { h with bufWf := hwf, bufWithin := hin }

theorem askRandom (h : s.Inv) : s.askRandom.Inv := { h with }

theorem withHost (h : s.Inv) (ms : List HostMove) : State.Inv { s with host := ms } := { h with }

/-- A response ends the command, so the ports stay one at a time (R22). -/
theorem respond (h : s.Inv) {n : BitVec 4} {k : KeyWord} (hr : Response.Wf ⟨.ok, n, k⟩) : (s.respond n k).Inv :=
  { h with
    oneAtATime := .inl rfl
    responseWf := fun _ e => Option.some.inj e ▸ hr }

theorem raise (h : s.Inv) (f : CommandFault) : (s.raise f).Inv :=
  { h with
    oneAtATime := .inl rfl
    responseWf := fun _ e => Option.some.inj e ▸ Response.wf_zero f.status }

theorem issue (h : s.Inv) (hr : s.response = none) (cw : CommandWord) : (s.issue cw).Inv :=
  { h with oneAtATime := .inr hr }

theorem pulseReset (h : s.Inv) : s.pulseReset.Inv :=
  { h with
    bufWf := s.buf.wf_forget
    bufWithin := by simp [Memory.forget]
    oneAtATime := .inl rfl
    responseWf := by simp }

/-- The response taken was well formed while outstanding, so it is among those received (R134). -/
theorem takeResponse (h : s.Inv) : s.takeResponse.Inv where
  cfgWf := by simpa using h.cfgWf
  bufWf := by simpa using h.bufWf
  bufWithin := by simpa using h.bufWithin
  oneAtATime := .inr (by simp)
  responseWf := by simp
  receivedWf r hr := by
    rw [takeResponse_received, List.mem_append, Option.mem_toList] at hr
    exact hr.elim (h.receivedWf r) (h.responseWf r)

theorem writeSeq (h : s.Inv) {a : Nat} {bs : List Byte} (ha : a + bs.length ≤ s.cfg.bufSize) :
    (s.withBuf (s.buf.writeSeq a bs)).Inv :=
  h.withBuf (Memory.wf_writeSeq h.bufWf a bs) (Memory.within_writeSeq h.bufWithin bs ha)

theorem xorRegion (h : s.Inv) (k : Key) {a n : Nat} (ha : a + n ≤ s.cfg.bufSize) :
    (s.withBuf (s.buf.xorRegion a k n)).Inv :=
  h.withBuf (Memory.wf_xorRegion h.bufWf a k n) (Memory.within_xorRegion h.bufWithin k ha)

/-! ### Commands and steps -/

theorem maskDone (h : s.Inv) {addr : Addr} {len : Len} (k : Key)
    (ha : addr.toNat + len.toNat ≤ s.cfg.bufSize) : (s.maskDone addr len k).Inv :=
  (h.xorRegion k ha).respond (Response.wf_ok _)

theorem of_exec (h : s.Inv) {i : Instr} {t : State} (he : exec i s = .next t) : t.Inv := by
  rcases exec_cases he with ⟨_, rfl⟩ | ⟨hfit, hdone⟩
  · exact h.raise _
  · rcases hdone with ⟨addr, len, opc, mf, rfl, rfl⟩ | ⟨addr, rfl, _, rfl⟩ | ⟨addr, k, rfl, _, rfl⟩ |
      ⟨addr, len, k, rfl, rfl⟩ | ⟨addr, len, kw, rfl, rfl⟩
    · exact (h.writeSeq (by rw [length_hdrBytes]; exact hfit)).respond (Response.wf_hdrLen len)
    · exact h.askRandom.raise _
    · exact (h.askRandom.writeSeq hfit).respond (Response.wf_ok _)
    · exact h.maskDone k hfit
    · exact h.maskDone _ hfit

theorem of_step (h : s.Inv) {t : State} (hs : step s = .next t) : t.Inv := by
  rcases step_cases hs with ⟨_, _, he⟩ | ⟨_, ⟨_, _, rfl⟩ | ⟨hr, hmove⟩⟩
  · exact h.of_exec he
  · exact h.takeResponse
  · rcases hmove with ⟨_, rfl⟩ | ⟨_, _, ms, _, hfit, rfl⟩ | ⟨cw, ms, _, rfl⟩ | ⟨ms, _, rfl⟩
    · exact h
    · exact (h.withHost ms).writeSeq hfit
    · exact (h.withHost ms).issue hr cw
    · exact (h.withHost ms).pulseReset

end State.Inv

/-! ### The obligations -/

/-- Settles O34: of all that a step can do, each update keeps the invariant. -/
theorem stepKeepsTheInvariant : Obligations.StepKeepsTheInvariant := fun _ _ h hs => h.of_step hs

/-- Settles O33: at reset nothing is listed, outstanding or received, so only the parameter's range is left. -/
theorem resetMeetsTheInvariant : Obligations.ResetMeetsTheInvariant :=
  ⟨fun _ hc => .resetWith hc, .resetWith (by decide)⟩

/-- Settles O24: both regions begin at `2^32 - 1` and hold two bytes or more, so neither fits. -/
theorem addressSumsDoNotWrap : Obligations.AddressSumsDoNotWrap := by
  intro len opc mf k s hs
  have hhdr : 1 < hdrLen len := by rcases hdrLen_cases len with h | h | h <;> omega
  have hmask : 1 < (0xFFFFFFFF#32 : Len).toNat := by decide
  exact ⟨exec_of_not_fits (bufSize_lt_top_add hs hhdr), exec_of_not_fits (bufSize_lt_top_add hs hmask)⟩

end Sys2Proof.Machine

/-! The statements of 10_state.md: what a command depends on and what it answers, the order of the host's moves
and the block's commands, the random source, and what reset leaves. -/

namespace Sys2Proof

/-! ### The word of an operation decodes to it -/

/-- Packing keeps each of the six fields: no two of them share a bit (30_encoding.md R63). -/
@[simp] theorem Command.ofWord_toWord (c : Command) : Command.ofWord c.toWord = c := by
  obtain ⟨cmd, mf, opc, addr, len, key⟩ := c
  simp only [Command.ofWord, Command.toWord, Command.mk.injEq]
  refine ⟨?cmd, ?mf, ?opc, ?addr, ?len, ?key⟩
  case mf => simp
  all_goals
    ext i hi
    simp [BitVec.getLsbD_setWidth]
    grind

/-- The select code and the fields of R62 give every operation back, `MASK.B`'s key by R69. -/
@[simp] theorem decodeWord_encodeWord (i : Instr) : decodeWord (encodeWord i) = i := by
  rw [decodeWord, encodeWord, Command.ofWord_toWord]
  cases i with
  | hdr => rfl
  | keygen => rfl
  | maskB => simp [encodeCommand, decodeCommand]
  | maskW => rfl

namespace Machine

/-! ### What every command answers -/

theorem exec_next (i : Instr) (s : State) : ∃ t, exec i s = .next t := by
  cases i <;> exact ⟨_, rfl⟩

/-- A command ends in one response, and leaves the parameters and the host alone (R12, R22, R25). -/
theorem exec_commandOver {i : Instr} {s t : State} (h : exec i s = .next t) :
    CommandOver s t ∧ ∃ r, t.response = some r := by
  rcases exec_cases h with ⟨_, rfl⟩ | ⟨_, hdone⟩
  · exact ⟨⟨rfl, rfl, rfl, rfl⟩, _, rfl⟩
  · rcases hdone with ⟨_, _, _, _, _, rfl⟩ | ⟨_, _, _, rfl⟩ | ⟨_, _, _, _, rfl⟩ | ⟨_, _, _, _, rfl⟩ |
      ⟨_, _, _, _, rfl⟩ <;> exact ⟨⟨rfl, rfl, rfl, rfl⟩, _, rfl⟩

theorem exec_keygen_of_answer {addr : Addr} {s : State} {k : Key} (hf : addr.toNat + 4 ≤ s.cfg.bufSize)
    (hk : s.rs.answer = some k) : exec (.keygen addr) s = .next (s.keygenDone addr k) := by
  have hchecked : s.checked addr keyLen (s.storeDrawnKey addr) = s.storeDrawnKey addr :=
    State.checked_of_fits hf _
  exact congrArg _ (hchecked.trans (State.storeDrawnKey_some hk addr))

/-! ### What a command depends on -/

/-- The two states hold the same `BUF` and the same outstanding response. -/
abbrev SameAnswer (s t : State) : Prop := s.buf = t.buf ∧ s.response = t.response

theorem sameAnswer_checked {s s' t t' : State} (addr : Addr) (n : Nat) (hcfg : s'.cfg = s.cfg)
    (hbuf : s'.buf = s.buf) (ht : SameAnswer t' t) :
    SameAnswer (s'.checked addr n t') (s.checked addr n t) := by
  rcases Nat.lt_or_ge s.cfg.bufSize (addr.toNat + n) with h | h
  · rw [State.checked_of_not_fits h, State.checked_of_not_fits (hcfg ▸ h)]
    exact ⟨hbuf, rfl⟩
  · rw [State.checked_of_fits h, State.checked_of_fits (hcfg ▸ h)]
    exact ht

theorem sameAnswer_storeDrawnKey {s s' : State} (addr : Addr) (hbuf : s'.buf = s.buf)
    (hrs : s'.rs.answer = s.rs.answer) : SameAnswer (s'.storeDrawnKey addr) (s.storeDrawnKey addr) := by
  cases hk : s.rs.answer with
  | none =>
    rw [State.storeDrawnKey_none hk, State.storeDrawnKey_none (hrs.trans hk)]
    exact ⟨hbuf, rfl⟩
  | some k =>
    rw [State.storeDrawnKey_some hk, State.storeDrawnKey_some (hrs.trans hk)]
    exact ⟨congrArg (·.writeSeq addr.toNat k.bytes) hbuf, rfl⟩

theorem sameAnswer_mask {s s' : State} (addr : Addr) (len : Len) (k : Key) (hcfg : s'.cfg = s.cfg)
    (hbuf : s'.buf = s.buf) : SameAnswer (s'.mask addr len k) (s.mask addr len k) :=
  sameAnswer_checked addr len.toNat hcfg hbuf ⟨congrArg (·.xorRegion addr.toNat k len.toNat) hbuf, rfl⟩

/-! ### One step, by what the ports and the host hold -/

theorem step_of_command {s : State} {cw : CommandWord} (h : s.command = some cw) :
    step s = exec (decodeWord cw) s := by
  simp [step, h]

theorem step_of_response {s : State} {r : Response} (hc : s.command = none) (hr : s.response = some r) :
    step s = .next s.takeResponse := by
  simp [step, hostTurn, hc, hr]

theorem step_of_hostMove {s : State} {m : HostMove} {ms : List HostMove} (hc : s.command = none)
    (hr : s.response = none) (hm : s.host = m :: ms) : step s = hostMove m { s with host := ms } := by
  simp [step, hostTurn, hc, hr, hm]

theorem State.takeResponse_of_some {s : State} {r : Response} (h : s.response = some r) :
    s.takeResponse = { s with response := none, received := s.received ++ [r] } := by
  simp [State.takeResponse, h]

theorem State.withFetchWord_toNat (s : State) (cw : CommandWord) : s.withFetchWord 104 cw.toNat = s.issue cw := by
  rw [State.withFetchWord, Nat.mod_eq_of_lt cw.isLt, BitVec.ofNat_toNat, BitVec.setWidth_eq]

theorem core_run_succ {s t : State} (h : step s = .next t) (n : Nat) : core.run (n + 1) s = core.run n t := by
  have hcore : core.step s = .next t := h
  simp [Host.Core.run, hcore]

/-! ### What the listed cells say -/

/-- A cell is listed exactly when its byte is the known one: rising addresses list no address twice. -/
theorem mem_iff_lookupCell {cs : List Host.Cell} (h : cs.Pairwise (fun c d => c.1 < d.1)) (a : Nat) (v : Byte) :
    (a, v) ∈ cs ↔ lookupCell cs a = some v := by
  induction cs with
  | nil => simp [lookupCell]
  | cons c cs ih =>
    obtain ⟨b, w⟩ := c
    obtain ⟨hb, hcs⟩ := List.pairwise_cons.mp h
    by_cases hab : b = a
    · subst hab
      have hnot : (b, v) ∉ cs := fun hm => Nat.lt_irrefl b (hb _ hm)
      simp [lookupCell, hnot, eq_comm]
    · simp [lookupCell, hab, Ne.symm hab, ih hcs]

/-! ### The obligations -/

/-- Settles O16: of all that a command can do, only the two ends of a `KEYGEN` that fits ask the source. -/
theorem onlyKeygenAsksTheRandomSource : Obligations.OnlyKeygenAsksTheRandomSource := by
  intro i s t h
  rcases exec_cases h with ⟨_, rfl⟩ | ⟨hfit, hdone⟩
  · exact .inl rfl
  · rcases hdone with ⟨_, _, _, _, _, rfl⟩ | ⟨addr, rfl, _, rfl⟩ | ⟨addr, _, rfl, _, rfl⟩ | ⟨_, _, _, _, rfl⟩ |
      ⟨_, _, _, _, rfl⟩
    · exact .inl rfl
    · exact .inr ⟨addr, rfl, hfit, rfl, rfl⟩
    · exact .inr ⟨addr, rfl, hfit, rfl, rfl⟩
    · exact .inl rfl
    · exact .inl rfl

/-- Settles O30: the bounds check reads the parameters, and each effect `BUF` and the answer it is given. -/
theorem bufIsTheOnlyState : Obligations.BufIsTheOnlyState := by
  intro i s s' hcfg hbuf hrs
  cases i with
  | hdr addr len opc mf =>
    have hwrite := congrArg (·.writeSeq addr.toNat (hdrBytes len opc mf)) hbuf
    exact ⟨_, _, rfl, rfl, sameAnswer_checked addr _ hcfg hbuf ⟨hwrite, rfl⟩⟩
  | keygen addr =>
    exact ⟨_, _, rfl, rfl, sameAnswer_checked addr _ hcfg hbuf (sameAnswer_storeDrawnKey addr hbuf hrs)⟩
  | maskB addr len key => exact ⟨_, _, rfl, rfl, sameAnswer_mask addr len key hcfg hbuf⟩
  | maskW addr len kw =>
    refine ⟨_, _, rfl, rfl, ?_⟩
    rw [hcfg]
    exact sameAnswer_mask addr len _ hcfg hbuf

/-- Settles O36: the step is the command's, and every command ends in a response with the host left alone. -/
theorem hostMakesNoMoveDuringACommand : Obligations.HostMakesNoMoveDuringACommand := by
  intro s cw hc
  obtain ⟨t, ht⟩ := exec_next (decodeWord cw) s
  obtain ⟨⟨_, hhost, hreceived, hcommand⟩, r, hr⟩ := exec_commandOver ht
  exact ⟨t, r, (step_of_command hc).trans ht, hhost, hreceived, hcommand, hr⟩

/-- Settles O37: of all that a step can do, only the host's issue fills an idle command port. -/
theorem responseIsTakenBeforeTheNextCommand : Obligations.ResponseIsTakenBeforeTheNextCommand := by
  refine ⟨fun s r hc hr => (step_of_response hc hr).trans (congrArg _ (State.takeResponse_of_some hr)), ?_⟩
  intro s t cw hc hs ht
  rcases step_cases hs with ⟨_, hsome, _⟩ | ⟨_, ⟨_, _, rfl⟩ | ⟨hr, hmove⟩⟩
  · simp [hc] at hsome
  · simp [hc] at ht
  · rcases hmove with ⟨_, rfl⟩ | ⟨_, _, _, _, _, rfl⟩ | ⟨cw', ms, hm, rfl⟩ | ⟨_, _, rfl⟩
    · simp [hc] at ht
    · simp [hc] at ht
    · obtain rfl : cw' = cw := by simpa using ht
      exact ⟨hr, ms, hm, rfl⟩
    · simp at ht

/-- Settles O41: neither a command nor a move of the host writes a parameter. -/
theorem stepKeepsTheParameters : Obligations.StepKeepsTheParameters := by
  intro s t hs
  rcases step_cases hs with ⟨_, _, he⟩ | ⟨_, ⟨_, _, rfl⟩ | ⟨_, hmove⟩⟩
  · obtain ⟨⟨hcfg, _⟩, _⟩ := exec_commandOver he
    exact hcfg
  · exact s.takeResponse_cfg
  · rcases hmove with ⟨_, rfl⟩ | ⟨_, _, _, _, _, rfl⟩ | ⟨_, _, _, rfl⟩ | ⟨_, _, rfl⟩ <;> rfl

/-- Settles O43: the host's issue, the command's own step, and the host's taking of its response. -/
theorem issuedCommandRunsAndReturns : Obligations.IssuedCommandRunsAndReturns := by
  intro s i ms hc hr hm
  let s₁ := State.issue { s with host := ms } (encodeWord i)
  obtain ⟨t, ht⟩ := exec_next i s₁
  obtain ⟨⟨_, (hhost : t.host = ms), (hreceived : t.received = s.received), hcommand⟩, r, hresponse⟩ :=
    exec_commandOver ht
  have hissue : step s = .next s₁ := step_of_hostMove hc hr hm
  have hexec : step s₁ = .next t := by rw [step_of_command rfl, decodeWord_encodeWord, ht]
  have htake : step t = .next t.takeResponse := step_of_response hcommand hresponse
  refine ⟨t, r, ht, hresponse, ?_, ?_, by simp [hhost]⟩
  · exact (core_run_succ hissue 2).trans ((core_run_succ hexec 1).trans (core_run_succ htake 0))
  · simp [State.result, hreceived, hresponse]

/-- Settles O44: a rising list is determined by its members, and its members are the known bytes. -/
theorem equalKnowledgeIsEqualMemory : Obligations.EqualKnowledgeIsEqualMemory := by
  intro m m' hm hm' hepoch hknown
  have hcells : m.cells = m'.cells := by
    have : Std.Irrefl fun c d : Host.Cell => c.1 < d.1 := ⟨fun c => Nat.lt_irrefl c.1⟩
    have : Std.Antisymm fun c d : Host.Cell => c.1 < d.1 := ⟨fun c d h h' => absurd h' (Nat.lt_asymm h)⟩
    refine hm.eq_of_mem_iff hm' fun ⟨a, v⟩ => ?_
    rw [mem_iff_lookupCell hm, mem_iff_lookupCell hm']
    exact Eq.congr_left (hknown a)
  exact congrArg₂ Memory.mk hcells hepoch

/-- Settles O15: the source that will answer `k` and `k` again. -/
theorem everyAnswerIsPossibleTwice : Obligations.EveryAnswerIsPossibleTwice := by
  intro addr s k hfit
  exact ⟨⟨[some k, some k], 0⟩, _, _, exec_keygen_of_answer hfit rfl, exec_keygen_of_answer hfit rfl, rfl, rfl⟩

/-- Settles O32: each field of the reset state, and an empty list of cells knows no byte. -/
theorem resetIsIdleAndNothingIsKnown : Obligations.ResetIsIdleAndNothingIsKnown :=
  fun _ => ⟨rfl, rfl, rfl, fun _ => rfl, rfl, rfl⟩

/-- Settles O35: a step is the decoded command; the other two clauses put an operation's own word on the port. -/
theorem stepRunsTheCommandOnThePort : Obligations.StepRunsTheCommandOnThePort := by
  have hword : ∀ (s : State) (i : Instr), s.command = some (encodeWord i) → step s = exec i s := by
    intro s i h
    rw [step_of_command h, decodeWord_encodeWord]
  refine ⟨fun _ _ h => step_of_command h, hword, fun s i => ?_⟩
  rw [State.withFetchWord_toNat]
  exact hword _ i rfl

end Machine

end Sys2Proof

/-! The statements of 20_memory.md: operations stay in their region, a byte's new value depends on no other byte, a
repeated header changes nothing, and the host writes `BUF` between commands. -/

namespace Sys2Proof

/-- What a command that fits makes of byte `j` of its region, from the parameters, the random answer and that
byte's old value alone (20_memory.md R42). -/
def Instr.newByte (c : Config) (answer : Option Key) (j : Nat) (old : Byte) : Instr → Byte
  | .hdr _ len opc mf => (Machine.hdrBytes len opc mf).getD j 0#8
  | .keygen _ => answer.elim old (·.byte j)
  | .maskB _ _ k => old ^^^ k.byte j
  | .maskW _ _ kw => old ^^^ (Machine.keyBytes c.keyWordByteOrder kw).byte j

namespace Machine

/-! ### Writes to different addresses commute -/

/-- The order of two writes does not show in the list of cells, whether or not it is in its canonical form. -/
theorem insertCell_comm (cs : List Host.Cell) {a b : Nat} (v w : Byte) (h : a < b) :
    insertCell (insertCell cs b w) a v = insertCell (insertCell cs a v) b w := by
  induction cs with
  | nil => simp [insertCell, h, Nat.lt_asymm h, Nat.ne_of_gt h]
  | cons c cs ih =>
    obtain ⟨d, u⟩ := c
    rcases Nat.lt_trichotomy d a with hd | rfl | hd
    · simp [insertCell, hd, hd.trans h, ih]
    · simp [insertCell, h]
    · have hda : ¬ d < a ∧ d ≠ a := by omega
      have hba : ¬ b < a ∧ b ≠ a := by omega
      rcases Nat.lt_trichotomy d b with hdb | rfl | hdb
      · simp [insertCell, h, hda, hdb]
      · simp [insertCell, h, hda]
      · have hdb' : ¬ d < b ∧ d ≠ b := by omega
        simp [insertCell, h, hda, hba, hdb']

theorem Memory.write_writeSeq_comm (m : Memory) {a b : Nat} (v : Byte) (bs : List Byte) (h : a < b) :
    (m.writeSeq b bs).write a v = (m.write a v).writeSeq b bs := by
  induction bs generalizing m b with
  | nil => rfl
  | cons w bs ih =>
    have hcomm : (m.write b w).write a v = (m.write a v).write b w := by
      simp [Memory.write, insertCell_comm m.cells v w h]
    simp only [Memory.writeSeq]
    rw [ih (m.write b w) (by omega), hcomm]

/-- Writing the same bytes again changes nothing. -/
theorem Memory.writeSeq_writeSeq_same (m : Memory) (a : Nat) (bs : List Byte) :
    (m.writeSeq a bs).writeSeq a bs = m.writeSeq a bs := by
  induction bs generalizing m a with
  | nil => rfl
  | cons b bs ih =>
    simp only [Memory.writeSeq]
    rw [Memory.write_writeSeq_comm _ b bs (Nat.lt_succ_self a), Memory.write_write_same, ih]

/-! ### What a command makes of one byte -/

theorem exec_hdr_of_fits {addr : Addr} {len : Len} {s : State} (h : addr.toNat + hdrLen len ≤ s.cfg.bufSize)
    (opc : Opcode) (mf : Bool) : exec (.hdr addr len opc mf) s = .next (s.hdrDone addr len opc mf) :=
  congrArg _ (State.checked_of_fits h _)

theorem buf_exec_of_not_fits {i : Instr} {s t : State} (h : s.cfg.bufSize < i.start.toNat + i.regionLen)
    (he : exec i s = .next t) : t.buf = s.buf := by
  rw [exec_of_not_fits h] at he
  injection he with he
  exact he ▸ rfl

theorem read_exec_outside {i : Instr} {s t : State} (he : exec i s = .next t) {a : Nat}
    (ha : OutsideRegion i.start.toNat i.regionLen a) : t.buf.read a = s.buf.read a := by
  rcases exec_cases he with ⟨_, rfl⟩ | ⟨_, hdone⟩
  · rfl
  · rcases hdone with ⟨addr, len, opc, mf, rfl, rfl⟩ | ⟨addr, rfl, _, rfl⟩ | ⟨addr, k, rfl, _, rfl⟩ |
      ⟨addr, len, k, rfl, rfl⟩ | ⟨addr, len, kw, rfl, rfl⟩
    · exact Memory.read_writeSeq_outside _ _ (by rw [length_hdrBytes]; exact ha)
    · rfl
    · exact Memory.read_writeSeq_outside _ _ ha
    · exact Memory.read_xorRegion_outside _ _ ha
    · exact Memory.read_xorRegion_outside _ _ ha

theorem read_exec_inside {i : Instr} {s t : State} (he : exec i s = .next t)
    (hfit : i.start.toNat + i.regionLen ≤ s.cfg.bufSize) {j : Nat} (hj : j < i.regionLen) :
    t.buf.read (i.start.toNat + j) = i.newByte s.cfg s.rs.answer j (s.buf.read (i.start.toNat + j)) := by
  rcases exec_cases he with ⟨hnot, _⟩ | ⟨_, hdone⟩
  · omega
  · rcases hdone with ⟨addr, len, opc, mf, rfl, rfl⟩ | ⟨addr, rfl, hk, rfl⟩ | ⟨addr, k, rfl, hk, rfl⟩ |
      ⟨addr, len, k, rfl, rfl⟩ | ⟨addr, len, kw, rfl, rfl⟩
    · have hj' : j < (hdrBytes len opc mf).length := by rw [length_hdrBytes]; exact hj
      exact (Memory.read_writeSeq_inside _ _ _ hj').trans (List.getD_eq_getElem _ _ hj').symm
    · rw [hk]
      rfl
    · have hj' : j < k.bytes.length := hj
      rw [hk]
      exact (Memory.read_writeSeq_inside _ _ _ hj').trans (k.getElem_bytes hj')
    · exact Memory.read_xorRegion_inside _ _ _ hj
    · exact Memory.read_xorRegion_inside _ _ _ hj

/-- A `HDR`, and a `KEYGEN` that gets a key, overwrite their region (20_memory.md R34). -/
theorem newByte_indep_of_old {i : Instr} {s : State} (hdo : s.CanDo i)
    (hi : (∃ addr len opc mf, i = .hdr addr len opc mf) ∨ ∃ addr, i = .keygen addr) (c : Config) (j : Nat)
    (old old' : Byte) : i.newByte c s.rs.answer j old = i.newByte c s.rs.answer j old' := by
  obtain ⟨_, hanswer⟩ := hdo
  rcases hi with ⟨_, _, _, _, rfl⟩ | ⟨addr, rfl⟩
  · rfl
  · obtain ⟨k, hk⟩ := Option.ne_none_iff_exists'.mp (hanswer addr rfl)
    rw [hk]
    rfl

/-! ### The obligations -/

/-- Settles O13: a header that fits is written over itself, and one that does not writes nothing either time. -/
theorem repeatedHdrLeavesBufAsItWas : Obligations.RepeatedHdrLeavesBufAsItWas := by
  intro addr len opc mf s t h
  rcases Nat.lt_or_ge s.cfg.bufSize (addr.toNat + hdrLen len) with hnot | hfit
  · obtain rfl : s.raise .invalidArgument = t := by
      simpa using (exec_of_not_fits (i := .hdr addr len opc mf) hnot).symm.trans h
    exact ⟨_, exec_of_not_fits hnot, rfl, rfl⟩
  · obtain rfl : s.hdrDone addr len opc mf = t := by simpa using (exec_hdr_of_fits hfit opc mf).symm.trans h
    have hagain := exec_hdr_of_fits (s := s.hdrDone addr len opc mf) hfit opc mf
    exact ⟨_, hagain, s.buf.writeSeq_writeSeq_same addr.toNat _, rfl⟩

/-- Settles O28: both runs fit, and inside its region either command makes a new byte without reading the old. -/
theorem operationsStayInTheirRegion : Obligations.OperationsStayInTheirRegion := by
  refine ⟨fun i s t a he ha => read_exec_outside he ha, ?_⟩
  intro i s s' t t' j hi hcfg hrs hdo hj he he'
  have hfit := hdo.1
  rw [read_exec_inside he hfit hj, read_exec_inside he' (hcfg ▸ hfit) hj, hcfg, hrs]
  exact newByte_indep_of_old hdo hi s.cfg j _ _

/-- Settles O29: the byte is kept when the region does not fit or does not hold it, and is `Instr.newByte` of the
old one when it does. -/
theorem newByteDependsOnlyOnItsOldValue : Obligations.NewByteDependsOnlyOnItsOldValue := by
  intro i s s' t t' a hcfg hrs hold he he'
  rcases Nat.lt_or_ge s.cfg.bufSize (i.start.toNat + i.regionLen) with hnot | hfit
  · rw [buf_exec_of_not_fits hnot he, buf_exec_of_not_fits (hcfg ▸ hnot) he', hold]
  · by_cases ha : OutsideRegion i.start.toNat i.regionLen a
    · rw [read_exec_outside he ha, read_exec_outside he' ha, hold]
    · obtain ⟨j, rfl⟩ : ∃ j, a = i.start.toNat + j := Nat.exists_eq_add_of_le (by omega)
      have hj : j < i.regionLen := by omega
      rw [read_exec_inside he hfit hj, read_exec_inside he' (hcfg ▸ hfit) hj, hcfg, hrs, hold]

/-- Settles O38: the step is the host's write, which is made whole or stops the model. -/
theorem hostWritesBetweenCommands : Obligations.HostWritesBetweenCommands := by
  intro s a bytes ms hc hr hm
  have hstep : step s = hostWrite a bytes { s with host := ms } := step_of_hostMove hc hr hm
  rcases hostWrite_cases a bytes { s with host := ms } with ⟨hfit, hwrite⟩ | ⟨hnot, hwrite⟩
  · refine ⟨fun _ => ⟨_, hstep.trans hwrite, s.buf.readSeq_writeSeq a bytes, ?_, rfl, rfl, rfl, rfl, hc, hr⟩,
      fun hnot => absurd hfit (Nat.not_le.mpr hnot)⟩
    exact fun b hb => s.buf.read_writeSeq_outside bytes hb
  · exact ⟨fun hfit => absurd hfit (Nat.not_le.mpr hnot), fun _ => hstep.trans hwrite⟩

end Machine

end Sys2Proof

/-! The statements of 30_encoding.md: the command word and its bytes, ignored fields, response words, headers
bit by bit, and the assembler's `HDR` line. -/

namespace Sys2Proof

/-! ### The bytes of a command word -/

theorem bytesOfWord_eq_map_range' (cw : CommandWord) :
    bytesOfWord cw = (List.range' 0 13).map fun j => cw.extractLsb' (8 * j) 8 := rfl

/-- The low byte of a word and the word without it, put together again. -/
theorem lowByte_or_shiftLeft (w : CommandWord) :
    (w.extractLsb' 0 8).setWidth 104 ||| (w >>> 8) <<< 8 = w := by
  ext i hi
  by_cases h : i < 8
  · simp [h, hi]
  · have hpos : 8 + (i - 8) = i := by omega
    simp [h, hpos, BitVec.getLsbD_eq_getElem hi]

/-- The bytes from number `k` on are the bits from `8 * k` on. -/
theorem wordOfBytes_bytesFrom (cw : CommandWord) (k n : Nat) (h : k + n = 13) :
    wordOfBytes ((List.range' k n).map fun j => cw.extractLsb' (8 * j) 8) = cw >>> (8 * k) := by
  induction n generalizing k with
  | zero =>
    obtain rfl : k = 13 := h
    exact (BitVec.ushiftRight_eq_zero (Nat.le_refl 104)).symm
  | succ n ih =>
    have hlow : cw.extractLsb' (8 * k) 8 = (cw >>> (8 * k)).extractLsb' 0 8 := by
      ext i hi
      simp
    have hrest : cw >>> (8 * (k + 1)) = (cw >>> (8 * k)) >>> 8 := BitVec.shiftRight_add cw (8 * k) 8
    rw [List.range'_succ, List.map_cons, wordOfBytes, ih (k + 1) (by omega), hlow, hrest,
      lowByte_or_shiftLeft]

@[simp] theorem wordOfBytes_bytesOfWord (cw : CommandWord) : wordOfBytes (bytesOfWord cw) = cw := by
  rw [bytesOfWord_eq_map_range', wordOfBytes_bytesFrom cw 0 13 rfl]
  exact BitVec.ushiftRight_zero cw

/-! ### The decoder on bytes, by their number (30_encoding.md R74) -/

theorem decode_of_length_lt {bytes : List Byte} (h : bytes.length < 13) :
    decode bytes = .error .truncated := if_pos h

theorem decode_of_length_eq {bytes : List Byte} (h : bytes.length = 13) :
    decode bytes = .ok (decodeWord (wordOfBytes bytes)) := by
  simp [decode, h]

theorem decode_of_length_gt {bytes : List Byte} (h : 13 < bytes.length) :
    decode bytes = .error .overlong := by
  simp [decode, Nat.lt_asymm h, Nat.ne_of_gt h]

/-! ### The operation a command selects (30_encoding.md R62) -/

theorem decodeCommand_hdr {c : Command} (h : c.cmd = 0b00#2) :
    decodeCommand c = .hdr c.addr c.len c.opc c.mf := by
  simp [decodeCommand, h]

theorem decodeCommand_keygen {c : Command} (h : c.cmd = 0b01#2) : decodeCommand c = .keygen c.addr := by
  simp [decodeCommand, h]

theorem decodeCommand_maskB {c : Command} (h : c.cmd = 0b10#2) :
    decodeCommand c = .maskB c.addr c.len (Key.ofField c.key) := by
  simp [decodeCommand, h]

theorem decodeCommand_maskW {c : Command} (h : c.cmd = 0b11#2) :
    decodeCommand c = .maskW c.addr c.len c.key := by
  simp [decodeCommand, h]

theorem selectCode_cases (c : BitVec 2) : c = 0b00#2 ∨ c = 0b01#2 ∨ c = 0b10#2 ∨ c = 0b11#2 := by
  decide +revert

/-- R64: the decoder reads the fields its operation uses and no other. -/
theorem decodeCommand_congr {c c' : Command} (hcmd : c.cmd = c'.cmd) (haddr : c.addr = c'.addr)
    (hlen : c.cmd ≠ 0b01#2 → c.len = c'.len)
    (hhdr : c.cmd = 0b00#2 → c.opc = c'.opc ∧ c.mf = c'.mf)
    (hkey : c.cmd = 0b10#2 ∨ c.cmd = 0b11#2 → c.key = c'.key) :
    decodeCommand c = decodeCommand c' := by
  rcases selectCode_cases c.cmd with h | h | h | h
  · obtain ⟨hopc, hmf⟩ := hhdr h
    rw [decodeCommand_hdr h, decodeCommand_hdr (hcmd ▸ h), haddr, hlen (by simp [h]), hopc, hmf]
  · rw [decodeCommand_keygen h, decodeCommand_keygen (hcmd ▸ h), haddr]
  · rw [decodeCommand_maskB h, decodeCommand_maskB (hcmd ▸ h), haddr, hlen (by simp [h]), hkey (.inl h)]
  · rw [decodeCommand_maskW h, decodeCommand_maskW (hcmd ▸ h), haddr, hlen (by simp [h]), hkey (.inr h)]

/-- The key bytes of a field that is itself part of a command word (30_encoding.md R63, R69). -/
theorem Key.ofField_extractLsb' (cw : CommandWord) (start : Nat) :
    Key.ofField (cw.extractLsb' start 32) =
      ⟨cw.extractLsb' start 8, cw.extractLsb' (start + 8) 8, cw.extractLsb' (start + 16) 8,
        cw.extractLsb' (start + 24) 8⟩ := by
  have hbyte : ∀ j, j + 8 ≤ 32 →
      (cw.extractLsb' start 32).extractLsb' j 8 = cw.extractLsb' (start + j) 8 := by
    intro j hj
    ext i hi
    have : j + i < 32 := by omega
    simp [this, Nat.add_assoc]
  simp [Key.ofField, hbyte]

/-! ### The assembler's `HDR` line (30_encoding.md R71) -/

theorem wellFormed_hdr_number_iff (addr len opc mf : Nat) :
    Line.wellFormed (.hdr addr len (.number opc) mf) = true ↔
      addr < 2 ^ 32 ∧ len < 2 ^ 32 ∧ opc < 16 ∧ mf < 2 := by
  simp [Line.wellFormed, OpcodeOperand.wellFormed, fitsWord, fitsFlag, and_assoc]

theorem assemble_of_wellFormed {l : Line} (h : l.wellFormed = true) : assemble l = .ok l.toOperation :=
  if_pos h

theorem assemble_of_not_wellFormed {l : Line} (h : ¬ l.wellFormed = true) :
    assemble l = .error .operandOutOfRange := if_neg h

namespace Machine

/-! ### The bits of a response word (30_encoding.md R67) -/

/-- The three fields stand side by side, `STATUS` lowest. -/
theorem Response.toWord_eq_append (r : Response) : r.toWord = r.keyout ++ (r.n ++ r.status.code) := by
  ext i hi
  simp [Response.toWord]
  grind

theorem Response.status_toWord (r : Response) : r.toWord.extractLsb' 0 2 = r.status.code := by
  rw [Response.toWord_eq_append]
  exact (BitVec.extractLsb'_append_eq_of_add_le (by decide)).trans BitVec.extractLsb'_append_eq_right

theorem Response.n_toWord (r : Response) : r.toWord.extractLsb' 2 4 = r.n := by
  rw [Response.toWord_eq_append]
  exact (BitVec.extractLsb'_append_eq_of_add_le (by decide)).trans BitVec.extractLsb'_append_eq_left

theorem Response.keyout_toWord (r : Response) : r.toWord.extractLsb' 6 32 = r.keyout := by
  rw [Response.toWord_eq_append]
  exact BitVec.extractLsb'_append_eq_left
@[simp] theorem Response.ofWord_toWord (r : Response) : Response.ofWord r.toWord = some r := by
  simp [Response.ofWord, Response.status_toWord, Response.n_toWord, Response.keyout_toWord]

/-! ### The bytes of a header (40_header_composer.md R76 to R79) -/

theorem fin_hdrByte0 (opc : Opcode) : (hdrByte0 opc).getLsbD 7 = true := by
  decide +revert

theorem rsv_hdrByte0 (opc : Opcode) : (hdrByte0 opc).extractLsb' 4 3 = 0b000#3 := by
  decide +revert

theorem opc_hdrByte0 (opc : Opcode) : (hdrByte0 opc).extractLsb' 0 4 = opc := by
  decide +revert

/-- The bytes of a header after its first two: the extended length. -/
def extendedLen (len : Len) : List Byte :=
  if len.toNat < t16 then []
  else if len.toNat < t64 then be16 (len.setWidth 16)
  else be64 (len.setWidth 64)

theorem hdrBytes_eq_cons (len : Len) (opc : Opcode) (mf : Bool) :
    hdrBytes len opc mf = hdrByte0 opc :: hdrByte1 len mf :: extendedLen len := by
  unfold hdrBytes extendedLen
  split
  · rfl
  · split <;> rfl

theorem len_cases (len : Len) :
    len.toNat < 126 ∨ (126 ≤ len.toNat ∧ len.toNat < 65536) ∨ 65536 ≤ len.toNat := by
  omega

section
variable {len : Len}

theorem indicator_of_lt (h : len.toNat < 126) : indicator len = len.setWidth 8 := if_pos h

theorem indicator_of_mid (h : 126 ≤ len.toNat ∧ len.toNat < 65536) : indicator len = 126#8 := by
  simp [indicator, t16, t64, h.2, Nat.not_lt.mpr h.1]

theorem indicator_of_ge (h : 65536 ≤ len.toNat) : indicator len = 127#8 := by
  have : ¬ len.toNat < 126 := by omega
  simp [indicator, t16, t64, this, Nat.not_lt.mpr h]

theorem extendedLen_of_lt (h : len.toNat < 126) : extendedLen len = [] := if_pos h

theorem extendedLen_of_mid (h : 126 ≤ len.toNat ∧ len.toNat < 65536) :
    extendedLen len = be16 (len.setWidth 16) := by
  simp [extendedLen, t16, t64, h.2, Nat.not_lt.mpr h.1]

theorem extendedLen_of_ge (h : 65536 ≤ len.toNat) : extendedLen len = be64 (len.setWidth 64) := by
  have : ¬ len.toNat < 126 := by omega
  simp [extendedLen, t16, t64, this, Nat.not_lt.mpr h]

end

theorem indicator_lt_128 (len : Len) : (indicator len).toNat < 128 := by
  rcases len_cases len with h | h | h
  · rw [indicator_of_lt h, BitVec.toNat_setWidth]
    omega
  · rw [indicator_of_mid h]
    decide
  · rw [indicator_of_ge h]
    decide

theorem maskFlag_hdrByte1 (len : Len) (mf : Bool) : (hdrByte1 len mf).getLsbD 7 = mf := by
  have hbit : (indicator len).getLsbD 7 = false := Nat.testBit_lt_two_pow (indicator_lt_128 len)
  rw [hdrByte1, BitVec.getLsbD_or, hbit]
  cases mf <;> rfl

/-- The mask flag leaves the seven bits of the indicator alone. -/
theorem lenField_hdrByte1 (len : Len) (mf : Bool) :
    (hdrByte1 len mf).extractLsb' 0 7 = (indicator len).extractLsb' 0 7 := by
  rw [hdrByte1, BitVec.extractLsb'_or]
  cases mf <;> simp

/-! ### Big-endian numbers (00_scope.md R10) -/

theorem beNat_be16 (v : BitVec 16) : beNat (be16 v) = v.toNat := by
  simp [beNat, be16, Nat.shiftRight_eq_div_pow]
  omega

theorem beNat_be64 (v : BitVec 64) : beNat (be64 v) = v.toNat := by
  simp [beNat, be64, Nat.shiftRight_eq_div_pow]
  omega

theorem be16_setWidth (len : Len) : be16 (len.setWidth 16) = [len.extractLsb' 8 8, len.extractLsb' 0 8] := by
  simp [be16, BitVec.extractLsb'_setWidth_of_le]

/-- A 32-bit length leaves the upper four of its eight bytes zero. -/
theorem be64_setWidth (len : Len) :
    be64 (len.setWidth 64) = [0#8, 0#8, 0#8, 0#8,
      len.extractLsb' 24 8, len.extractLsb' 16 8, len.extractLsb' 8 8, len.extractLsb' 0 8] := by
  have hhigh (j : Nat) (hj : 32 ≤ j) : len.extractLsb' j 8 = 0#8 := by
    ext i hi
    simp [hj.trans (Nat.le_add_right j i)]
  simp [be64, BitVec.extractLsb'_setWidth_of_le, hhigh]

/-! ### A header in each of its three formats (40_header_composer.md R79) -/

section
variable {len : Len}

theorem lenField_of_lt (h : len.toNat < 126) (mf : Bool) :
    (hdrByte1 len mf).extractLsb' 0 7 = len.extractLsb' 0 7 := by
  rw [lenField_hdrByte1, indicator_of_lt h]
  exact BitVec.extractLsb'_setWidth_of_le (by decide)

theorem lenField_of_mid (h : 126 ≤ len.toNat ∧ len.toNat < 65536) (mf : Bool) :
    (hdrByte1 len mf).extractLsb' 0 7 = 126#7 := by
  rw [lenField_hdrByte1, indicator_of_mid h]
  rfl

theorem lenField_of_ge (h : 65536 ≤ len.toNat) (mf : Bool) :
    (hdrByte1 len mf).extractLsb' 0 7 = 127#7 := by
  rw [lenField_hdrByte1, indicator_of_ge h]
  rfl

/-- A length below 126 stands in the indicator itself, which then names no extended format. -/
theorem lenField_ne_of_lt (h : len.toNat < 126) (mf : Bool) {c : BitVec 7} (hc : 126 ≤ c.toNat) :
    (hdrByte1 len mf).extractLsb' 0 7 ≠ c := by
  rw [lenField_of_lt h]
  rintro rfl
  rw [BitVec.extractLsb'_toNat, Nat.shiftRight_zero] at hc
  omega

theorem length_extendedLen_of_lt (h : len.toNat < 126) : (extendedLen len).length = 0 := by
  rw [extendedLen_of_lt h]
  rfl

theorem length_extendedLen_of_mid (h : 126 ≤ len.toNat ∧ len.toNat < 65536) :
    (extendedLen len).length = 2 := by
  rw [extendedLen_of_mid h]
  rfl

theorem length_extendedLen_of_ge (h : 65536 ≤ len.toNat) : (extendedLen len).length = 8 := by
  rw [extendedLen_of_ge h]
  rfl

theorem beNat_extendedLen_of_mid (h : 126 ≤ len.toNat ∧ len.toNat < 65536) :
    beNat (extendedLen len) = len.toNat := by
  rw [extendedLen_of_mid h, beNat_be16, BitVec.toNat_setWidth, Nat.mod_eq_of_lt h.2]

theorem beNat_extendedLen_of_ge (h : 65536 ≤ len.toNat) : beNat (extendedLen len) = len.toNat := by
  rw [extendedLen_of_ge h, beNat_be64, BitVec.toNat_setWidth]
  omega

end

/-! ### The obligations -/

/-- Settles O1: the 13 bytes are put together to the word they came from, and the word decodes to its operation. -/
theorem decodeEncodeAgree : Obligations.DecodeEncodeAgree := by
  refine fun i => ⟨decodeWord_encodeWord i, ?_⟩
  have hlen : (encode i).length = 13 := rfl
  rw [decode_of_length_eq hlen, encode, wordOfBytes_bytesOfWord, decodeWord_encodeWord]

/-- Settles O3: two commands that agree on the fields read decode to one operation. -/
theorem ignoredFieldsHaveNoEffect : Obligations.IgnoredFieldsHaveNoEffect :=
  fun _ _ s hcmd haddr hlen hhdr hkey => congrArg (exec · s) (decodeCommand_congr hcmd haddr hlen hhdr hkey)

/-- Settles O7: the three fields of the packed word give the response back, and code 3 names no status. -/
theorem responseWordFields : Obligations.ResponseWordFields := by
  refine ⟨fun r => ⟨r.status_toWord, r.n_toWord, r.keyout_toWord, r.ofWord_toWord⟩, fun w hw => ?_⟩
  rw [Response.ofWord, hw]
  rfl

/-- Settles O9: the two fixed bytes, then the extended length of each format. -/
theorem headerBitLayout : Obligations.HeaderBitLayout := by
  intro len opc mf
  refine ⟨_, _, _, hdrBytes_eq_cons len opc mf, fin_hdrByte0 opc, rsv_hdrByte0 opc, opc_hdrByte0 opc,
    maskFlag_hdrByte1 len mf, fun h => ?_, fun h => ?_, fun h => ?_⟩
  · exact ⟨lenField_of_lt h mf, extendedLen_of_lt h⟩
  · exact ⟨lenField_of_mid h mf, (extendedLen_of_mid h).trans (be16_setWidth len)⟩
  · exact ⟨lenField_of_ge h mf, (extendedLen_of_ge h).trans (be64_setWidth len)⟩

/-- Settles O11: the extended length of each format is as long as the format says and stands for the length. -/
theorem headerIsMinimal : Obligations.HeaderIsMinimal := by
  intro len opc mf b0 b1 ext hbytes
  rw [hdrBytes_eq_cons] at hbytes
  obtain ⟨rfl, rfl, rfl⟩ : hdrByte0 opc = b0 ∧ hdrByte1 len mf = b1 ∧ extendedLen len = ext := by
    simpa using hbytes
  rw [← List.length_eq_zero_iff]
  rcases len_cases len with h | h | h
  · have hlen := length_extendedLen_of_lt h
    have h126 := lenField_ne_of_lt h mf (c := 126#7) (by decide)
    have h127 := lenField_ne_of_lt h mf (c := 127#7) (by decide)
    exact ⟨by omega, by omega, (absurd · h126), (absurd · h127)⟩
  · have hlen := length_extendedLen_of_mid h
    have hnat := beNat_extendedLen_of_mid h
    have h127 : (hdrByte1 len mf).extractLsb' 0 7 ≠ 127#7 := by
      rw [lenField_of_mid h]
      decide
    exact ⟨by omega, by omega, fun _ => ⟨hlen, by omega, by omega⟩, (absurd · h127)⟩
  · have hlen := length_extendedLen_of_ge h
    have hnat := beNat_extendedLen_of_ge h
    have h126 : (hdrByte1 len mf).extractLsb' 0 7 ≠ 126#7 := by
      rw [lenField_of_ge h]
      decide
    have hzero : (extendedLen len).take 4 = [0#8, 0#8, 0#8, 0#8] := by
      rw [extendedLen_of_ge h, be64_setWidth]
      rfl
    exact ⟨by omega, by omega, (absurd · h126), fun _ => ⟨hlen, by omega, by omega, hzero⟩⟩

/-- Settles O2: the select code of the word decides, and each operation's operands are fields of it. -/
theorem commandWordFields : Obligations.CommandWordFields := by
  intro cw
  let c := Command.ofWord cw
  refine ⟨decodeCommand_hdr (c := c), decodeCommand_keygen (c := c), fun h => ?_, decodeCommand_maskW (c := c)⟩
  exact (decodeCommand_maskB (c := c) h).trans (congrArg _ (Key.ofField_extractLsb' cw 72))

/-- Settles O4: each word is evaluated. -/
theorem specCommandWordsDecode : Obligations.SpecCommandWordsDecode := by
  unfold Obligations.SpecCommandWordsDecode
  decide

/-- Settles O5: the three numbers of bytes are the three answers of the decoder. -/
theorem onlyThirteenBytesDecode : Obligations.OnlyThirteenBytesDecode :=
  fun _ => ⟨decode_of_length_lt, fun h => ⟨_, decode_of_length_eq h⟩, decode_of_length_gt⟩

/-- Settles O6: a line in range assembles to its numbers cut to the widths they fit in. -/
theorem assembledHdrKeepsItsNumbers : Obligations.AssembledHdrKeepsItsNumbers := by
  intro addr len opc mf
  rw [← wellFormed_hdr_number_iff]
  refine ⟨fun hwf => ?_, assemble_of_not_wellFormed⟩
  obtain ⟨haddr, hlen, hopc, _⟩ := (wellFormed_hdr_number_iff addr len opc mf).mp hwf
  exact ⟨_, _, _, assemble_of_wellFormed hwf, Nat.mod_eq_of_lt haddr, Nat.mod_eq_of_lt hlen,
    Nat.mod_eq_of_lt hopc⟩

end Machine

end Sys2Proof

/-! The statements of 40_header_composer.md: the length classes, what a header's bytes give back, what `HDR` does to
the state, and the pseudo-operations that are one command. -/

namespace Sys2Proof.Machine

/-! ### The length of a header (R76) -/

section
variable {len : Len}

theorem hdrLen_of_lt (h : len.toNat < 126) : hdrLen len = 2 := if_pos h

theorem hdrLen_of_mid (h : 126 ≤ len.toNat ∧ len.toNat < 65536) : hdrLen len = 4 := by
  simp [hdrLen, t16, t64, h.2, Nat.not_lt.mpr h.1]

theorem hdrLen_of_ge (h : 65536 ≤ len.toNat) : hdrLen len = 10 := by
  have : ¬ len.toNat < 126 := by omega
  simp [hdrLen, t16, t64, this, Nat.not_lt.mpr h]

theorem toNat_indicator_of_lt (h : len.toNat < 126) : (indicator len).toNat = len.toNat := by
  rw [indicator_of_lt h, BitVec.toNat_setWidth, Nat.mod_eq_of_lt (h.trans (by decide))]

end

theorem hdrLen_mono {len len' : Len} (h : len.toNat ≤ len'.toNat) : hdrLen len ≤ hdrLen len' := by
  rcases len_cases len with hl | hl | hl
  · have hleast := hdrLen_cases len'
    rw [hdrLen_of_lt hl]
    omega
  · rw [hdrLen_of_mid hl]
    rcases Nat.lt_or_ge len'.toNat 65536 with hl' | hl'
    · rw [hdrLen_of_mid ⟨hl.1.trans h, hl'⟩]
    · rw [hdrLen_of_ge hl']
      decide
  · rw [hdrLen_of_ge hl, hdrLen_of_ge (hl.trans h)]

/-- The four bits of `N` hold every header length (30_encoding.md R66). -/
theorem toNat_ofNat_hdrLen (len : Len) : (BitVec.ofNat 4 (hdrLen len)).toNat = hdrLen len := by
  rcases hdrLen_cases len with h | h | h <;> rw [h] <;> rfl

/-! ### The length a header declares (R58), by its indicator -/

section
variable {b0 b1 : Byte} {ext : List Byte}

theorem declaredLen_of_le (h : (b1.extractLsb' 0 7).toNat ≤ 125) :
    declaredLen (b0 :: b1 :: ext) = (b1.extractLsb' 0 7).toNat := if_pos h

theorem declaredLen_of_eq_126 (h : b1.extractLsb' 0 7 = 126#7) :
    declaredLen (b0 :: b1 :: ext) = beNat (ext.take 2) := by
  simp [declaredLen, h]

theorem declaredLen_of_eq_127 (h : b1.extractLsb' 0 7 = 127#7) :
    declaredLen (b0 :: b1 :: ext) = beNat (ext.take 8) := by
  simp [declaredLen, h]

end

/-- A header declares the length it was made for: in its indicator, or in the extended length after it. -/
@[simp] theorem declaredLen_hdrBytes (len : Len) (opc : Opcode) (mf : Bool) :
    declaredLen (hdrBytes len opc mf) = len.toNat := by
  rw [hdrBytes_eq_cons]
  rcases len_cases len with h | h | h
  · have hfield : ((hdrByte1 len mf).extractLsb' 0 7).toNat = len.toNat := by
      rw [lenField_of_lt h, BitVec.extractLsb'_toNat, Nat.shiftRight_zero, Nat.mod_eq_of_lt (h.trans (by decide))]
    rw [declaredLen_of_le (by omega), hfield]
  · rw [declaredLen_of_eq_126 (lenField_of_mid h mf), List.take_of_length_le (length_extendedLen_of_mid h).le,
      beNat_extendedLen_of_mid h]
  · rw [declaredLen_of_eq_127 (lenField_of_ge h mf), List.take_of_length_le (length_extendedLen_of_ge h).le,
      beNat_extendedLen_of_ge h]

/-- The opcode and the mask flag are read from the first two bytes, the length as the header declares it. -/
theorem hdrBytes_injective {len len' : Len} {opc opc' : Opcode} {mf mf' : Bool}
    (h : hdrBytes len opc mf = hdrBytes len' opc' mf') : len = len' ∧ opc = opc' ∧ mf = mf' := by
  have hlen : len.toNat = len'.toNat := by
    rw [← declaredLen_hdrBytes len opc mf, h, declaredLen_hdrBytes]
  rw [hdrBytes_eq_cons, hdrBytes_eq_cons] at h
  injection h with h0 h
  injection h with h1 _
  refine ⟨BitVec.eq_of_toNat_eq hlen, ?opcode, ?flag⟩
  case opcode => rw [← opc_hdrByte0 opc, h0, opc_hdrByte0]
  case flag => rw [← maskFlag_hdrByte1 len mf, h1, maskFlag_hdrByte1]

/-! ### The obligations -/

/-- Settles O10: the length is the declared one, and the operands are read back from the bytes. -/
theorem headerGivesItsOperandsBack : Obligations.HeaderGivesItsOperandsBack :=
  ⟨fun len opc mf => ⟨length_hdrBytes len opc mf, declaredLen_hdrBytes len opc mf⟩, fun _ _ => hdrLen_mono,
    fun _ _ _ _ _ _ => hdrBytes_injective⟩

/-- Settles O12: a header that fits is written as one sequence, and one that does not ends in the uniform fault. -/
theorem hdrWritesHeader : Obligations.HdrWritesHeader := by
  intro addr len opc mf s
  refine ⟨fun hfit => ?_, fun hnot => exec_of_not_fits (i := .hdr addr len opc mf) hnot⟩
  have he := exec_hdr_of_fits hfit opc mf
  have hread := s.buf.readSeq_writeSeq addr.toNat (hdrBytes len opc mf)
  rw [length_hdrBytes] at hread
  exact ⟨_, he, hread, fun _ ha => read_exec_outside he ha, ⟨_, rfl, toNat_ofNat_hdrLen len⟩, rfl,
    (exec_commandOver he).1⟩

/-- Settles O8: the header's length and its indicator, class by class. -/
theorem headerLengthAndIndicator : Obligations.HeaderLengthAndIndicator :=
  fun _ => ⟨fun h => ⟨hdrLen_of_lt h, toNat_indicator_of_lt h⟩, fun h => ⟨hdrLen_of_mid h, indicator_of_mid h⟩,
    fun h => ⟨hdrLen_of_ge h, indicator_of_ge h⟩⟩

/-- Settles O45: what the host runs for each of the four is by definition its one command, `OPC_DEFAULT` being 1. -/
theorem oneCommandPseudoOperations : Obligations.OneCommandPseudoOperations :=
  fun _ _ _ _ _ _ _ => ⟨rfl, rfl, rfl, rfl⟩

end Sys2Proof.Machine

/-! The statements of 41_mask_cipher.md: the laws of `Xor4`, the key bytes of either key form, and what `KEYGEN` and
the two `MASK` operations do to the state. -/

namespace Sys2Proof

/-! ### Key bytes -/

/-- The key that changes no byte. -/
abbrev Key.zero : Key := ⟨0#8, 0#8, 0#8, 0#8⟩

theorem Key.eq_of_byte {k k' : Key} (h : ∀ j < 4, k.byte j = k'.byte j) : k = k' :=
  (Key.mk.injEq ..).mpr ⟨h 0 (by decide), h 1 (by decide), h 2 (by decide), h 3 (by decide)⟩

theorem Key.byte_eq_getD (k : Key) (i : Nat) : k.byte i = k.bytes.getD (i % 4) 0#8 := by
  have hi : i % 4 < k.bytes.length := Nat.mod_lt i (by decide)
  rw [List.getD_eq_getElem _ _ hi, k.getElem_bytes, k.byte_mod]

@[simp] theorem Key.byte_zero (i : Nat) : Key.zero.byte i = 0#8 := by
  rcases Key.zero.byte_cases i with ⟨_, h⟩ | ⟨_, h⟩ | ⟨_, h⟩ | ⟨_, h⟩ <;> exact h

@[simp] theorem Key.xor_self (k : Key) : k.xor k = Key.zero := by
  simp [Key.xor]

theorem Key.byte_rot_mod (k : Key) (r i : Nat) : (k.rot (r % 4)).byte i = k.byte (r + i) := by
  rw [k.byte_rot, ← k.byte_mod, Nat.add_mod_mod, k.byte_mod, Nat.add_comm]

/-- Every bit of a key field lies in one of its four bytes (30_encoding.md R69). -/
@[simp] theorem Key.toField_ofField (w : KeyWord) : (Key.ofField w).toField = w := by
  ext i hi
  simp [Key.toField, Key.ofField, BitVec.getLsbD_eq_getElem hi]
  grind

namespace Machine

/-- Under `little`, the bytes of a key word are those of the same field of a `MASK.B` command (R95, R96). -/
theorem keyBytes_little (kw : KeyWord) : keyBytes .little kw = Key.ofField kw := rfl

theorem byte_keyBytes_little (kw : KeyWord) (i : Nat) :
    (keyBytes .little kw).byte i = kw.extractLsb' (8 * (i % 4)) 8 := by
  rcases (keyBytes .little kw).byte_cases i with ⟨h, e⟩ | ⟨h, e⟩ | ⟨h, e⟩ | ⟨h, e⟩ <;> rw [e, h] <;> rfl

theorem byte_keyBytes_big (kw : KeyWord) (i : Nat) :
    (keyBytes .big kw).byte i = kw.extractLsb' (24 - 8 * (i % 4)) 8 := by
  rcases (keyBytes .big kw).byte_cases i with ⟨h, e⟩ | ⟨h, e⟩ | ⟨h, e⟩ | ⟨h, e⟩ <;> rw [e, h] <;> rfl

/-! ### The transform `Xor4` (R90, R101) -/

/-- `Xor4` acts on each byte by its index alone. -/
theorem xor4_eq_mapIdx (s : List Byte) (k : Key) : xor4 s k = s.mapIdx fun i b => b ^^^ k.byte i := by
  have hlen : (xor4 s k).length = s.length := length_xor4From k 0 s
  refine List.ext_getElem (by rw [hlen, List.length_mapIdx]) fun j hj _ => ?_
  have hbyte := getElem_xor4From k 0 s (hlen ▸ hj)
  rw [Nat.zero_add] at hbyte
  rw [List.getElem_mapIdx]
  exact hbyte

@[simp] theorem length_xor4 (s : List Byte) (k : Key) : (xor4 s k).length = s.length :=
  length_xor4From k 0 s

theorem getElem_xor4 (s : List Byte) (k : Key) {j : Nat} (h : j < (xor4 s k).length) :
    (xor4 s k)[j] = s[j]'(length_xor4 s k ▸ h) ^^^ k.byte j := by
  simp only [xor4_eq_mapIdx, List.getElem_mapIdx]

theorem getD_xor4 (s : List Byte) (k : Key) {j : Nat} (h : j < s.length) :
    (xor4 s k).getD j 0#8 = s.getD j 0#8 ^^^ k.byte j := by
  rw [List.getD_eq_getElem _ _ h, List.getD_eq_getElem _ _ (length_xor4 s k ▸ h), getElem_xor4]

@[simp] theorem xor4_zero (s : List Byte) : xor4 s Key.zero = s := by
  refine List.ext_getElem (length_xor4 s _) fun j hj _ => ?_
  rw [getElem_xor4, Key.byte_zero, BitVec.xor_zero]

theorem xor4_xor4 (s : List Byte) (k k' : Key) : xor4 (xor4 s k) k' = xor4 s (k.xor k') := by
  simp [xor4_eq_mapIdx, Function.comp_def, Key.byte_xor, BitVec.xor_assoc]

@[simp] theorem xor4_xor4_self (s : List Byte) (k : Key) : xor4 (xor4 s k) k = s := by
  rw [xor4_xor4, Key.xor_self, xor4_zero]

theorem xor4_append (s t : List Byte) (k : Key) :
    xor4 (s ++ t) k = xor4 s k ++ xor4 t (k.rot (s.length % 4)) := by
  simp [xor4_eq_mapIdx, List.mapIdx_append, Key.byte_rot_mod, Nat.add_comm]

/-- Four bytes meet every byte of the key, so only the zero key leaves them as they are. -/
theorem eq_zero_of_xor4_eq_self {s : List Byte} {k : Key} (hs : 4 ≤ s.length) (h : xor4 s k = s) :
    k = Key.zero := by
  refine Key.eq_of_byte fun j hj => ?_
  have hbyte := getD_xor4 s k (j := j) (by omega)
  rw [h] at hbyte
  rw [Key.byte_zero]
  exact (BitVec.xor_right_inj _).mp (hbyte.symm.trans BitVec.xor_zero.symm)

/-! ### The XOR of a region of `BUF` (R92) -/

namespace Memory

variable (m : Memory)

theorem readSeq_xorRegion (a : Nat) (k : Key) (n : Nat) :
    (m.xorRegion a k n).readSeq a n = xor4 (m.readSeq a n) k := by
  refine List.ext_getElem (by simp) fun j hj _ => ?_
  have hjn : j < n := by simpa using hj
  rw [getElem_xor4, getElem_readSeq, getElem_readSeq, read_xorRegion_inside m k a hjn]

/-- A region masked in two parts, the second with the rotated key, is masked as a whole (R98). -/
theorem xorRegion_add (a : Nat) (k : Key) (n r : Nat) :
    m.xorRegion a k (n + r) = (m.xorRegion a k n).xorRegion (a + n) (k.rot (n % 4)) r := by
  induction r with
  | zero => rfl
  | succ r ih => rw [← Nat.add_assoc, xorRegion, xorRegion, ih, Key.byte_rot_mod, Nat.add_assoc]

theorem read_xorRegion_zero (a n b : Nat) : (m.xorRegion a Key.zero n).read b = m.read b := by
  by_cases hb : OutsideRegion a n b
  · exact m.read_xorRegion_outside _ hb
  · obtain ⟨j, rfl⟩ : ∃ j, b = a + j := Nat.exists_eq_add_of_le (by omega)
    rw [m.read_xorRegion_inside _ a (by omega), Key.byte_zero, BitVec.xor_zero]

/-- A key written to memory is read back byte by byte. -/
theorem read_writeSeq_key (a : Nat) (k : Key) {j : Nat} (h : j < 4) :
    (m.writeSeq a k.bytes).read (a + j) = k.byte j :=
  (m.read_writeSeq_inside k.bytes a h).trans (k.getElem_bytes h)

end Memory

/-! ### What `KEYGEN` and `MASK` do (R87, R92, R94) -/

theorem exec_keygen_of_no_answer {addr : Addr} {s : State} (hf : addr.toNat + 4 ≤ s.cfg.bufSize)
    (hk : s.rs.answer = none) :
    exec (.keygen addr) s = .next (s.askRandom.raise .randomSourceUnavailable) := by
  have hchecked : s.checked addr keyLen (s.storeDrawnKey addr) = s.storeDrawnKey addr :=
    State.checked_of_fits hf _
  exact congrArg _ (hchecked.trans (State.storeDrawnKey_none hk addr))

theorem exec_maskB_of_fits {addr : Addr} {len : Len} {s : State} (h : addr.toNat + len.toNat ≤ s.cfg.bufSize)
    (k : Key) : exec (.maskB addr len k) s = .next (s.maskDone addr len k) :=
  congrArg _ (State.checked_of_fits h _)

/-- `MASK.W` is `MASK.B` with the bytes of its word (R96). -/
theorem exec_maskW (addr : Addr) (len : Len) (kw : KeyWord) (s : State) :
    exec (.maskW addr len kw) s = exec (.maskB addr len (keyBytes s.cfg.keyWordByteOrder kw)) s := rfl

/-- Either `MASK`, with given parameters, masks every region that fits with one key. -/
theorem exists_key_exec_mask {i : Instr} {addr : Addr} {len : Len}
    (hi : (∃ k, i = .maskB addr len k) ∨ ∃ kw, i = .maskW addr len kw) (c : Config) :
    ∃ k, ∀ s : State, s.cfg = c → addr.toNat + len.toNat ≤ c.bufSize →
      exec i s = .next (s.maskDone addr len k) := by
  rcases hi with ⟨k, rfl⟩ | ⟨kw, rfl⟩
  · exact ⟨k, fun s hs h => exec_maskB_of_fits (hs ▸ h) k⟩
  · refine ⟨keyBytes c.keyWordByteOrder kw, fun s hs h => ?_⟩
    subst hs
    exact (exec_maskW addr len kw s).trans (exec_maskB_of_fits h _)

theorem read_maskDone_inside (s : State) (addr : Addr) {len : Len} (k : Key) {j : Nat} (h : j < len.toNat) :
    (s.maskDone addr len k).buf.read (addr.toNat + j) = s.buf.read (addr.toNat + j) ^^^ k.byte j :=
  s.buf.read_xorRegion_inside k addr.toNat h

/-! ### The obligations -/

/-- Settles O14: the answers of the source are the two ends of a `KEYGEN` that fits; one that does not ends in the
uniform fault. -/
theorem keygenWritesDrawnKey : Obligations.KeygenWritesDrawnKey := by
  intro addr s
  refine ⟨fun k hfit hk => ?_, exec_keygen_of_no_answer, exec_of_not_fits (i := .keygen addr)⟩
  have he := exec_keygen_of_answer hfit hk
  have hread {j : Nat} (hj : j < 4) := s.buf.read_writeSeq_key addr.toNat k hj
  have hkeyout := Key.ofField_toField k
  refine ⟨_, he, hread (j := 0) (by decide), hread (j := 1) (by decide), hread (j := 2) (by decide),
    hread (j := 3) (by decide), fun _ ha => read_exec_outside he ha, ⟨_, rfl, ?_⟩, rfl, (exec_commandOver he).1⟩
  exact ⟨congrArg Key.k0 hkeyout, congrArg Key.k1 hkeyout, congrArg Key.k2 hkeyout, congrArg Key.k3 hkeyout⟩

/-- Settles O17: a region that fits is masked byte by byte, and one that does not ends in the uniform fault. -/
theorem maskBXorsItsRegion : Obligations.MaskBXorsItsRegion := by
  intro addr len k s
  refine ⟨fun hfit => ?_, exec_of_not_fits (i := .maskB addr len k)⟩
  have he := exec_maskB_of_fits hfit k
  refine ⟨_, he, fun i hi => ?_, s.buf.readSeq_xorRegion addr.toNat k len.toNat,
    fun _ ha => read_exec_outside he ha, rfl, rfl, (exec_commandOver he).1⟩
  exact (read_maskDone_inside s addr k hi).trans (congrArg _ (k.byte_eq_getD i))

/-- Settles O18: `MASK.W` is the `MASK.B` of its word's bytes, which the byte order picks. -/
theorem maskWXorsItsRegion : Obligations.MaskWXorsItsRegion := by
  intro addr len kw s
  refine ⟨fun hfit => ?_, exec_of_not_fits (i := .maskW addr len kw)⟩
  have he := (exec_maskW addr len kw s).trans (exec_maskB_of_fits hfit _)
  have hread {i : Nat} (hi : i < len.toNat) :=
    read_maskDone_inside s addr (keyBytes s.cfg.keyWordByteOrder kw) hi
  refine ⟨_, he, fun horder i hi => ?little, fun horder i hi => ?big, fun _ ha => read_exec_outside he ha, rfl, rfl,
    (exec_commandOver he).1⟩
  case little => exact (hread hi).trans (by rw [horder, byte_keyBytes_little])
  case big => exact (hread hi).trans (by rw [horder, byte_keyBytes_big])

/-- Settles O20: the laws of `Xor4`, its own inverse and so a bijection, and the frame of every operation. -/
theorem xorTransformLaws : Obligations.XorTransformLaws := by
  refine ⟨fun s k => ⟨length_xor4 s k, fun _ => getD_xor4 s k, xor4_xor4_self s k, xor4_zero s⟩, xor4_xor4,
    xor4_append, fun k n u hu => ?bijection, fun addr len k kw s t a ha he => ?frame⟩
  case bijection =>
    refine ⟨xor4 u k, (length_xor4 u k).trans hu, xor4_xor4_self u k, fun s' hs' => ?_⟩
    rw [← hs', xor4_xor4_self]
  case frame => exact he.elim (read_exec_outside · ha) (read_exec_outside · ha)

/-- Settles O21: on sequences by the laws of `Xor4`, and in `BUF` because each byte is masked twice alike. -/
theorem maskTwiceRestores : Obligations.MaskTwiceRestores := by
  refine ⟨xor4_xor4_self, fun s k hs h => ?idempotent, fun i addr len s t t' hi hfit he hcfg hsame => ?restores⟩
  case idempotent => exact eq_zero_of_xor4_eq_self hs ((xor4_xor4_self s k).symm.trans h).symm
  case restores =>
    obtain ⟨k, hmask⟩ := exists_key_exec_mask hi s.cfg
    obtain rfl : s.maskDone addr len k = t := by simpa using (hmask s rfl hfit).symm.trans he
    refine ⟨_, hmask t' hcfg hfit, fun j hj => ?_⟩
    rw [read_maskDone_inside t' addr k hj, hsame j hj, read_maskDone_inside s addr k hj, BitVec.xor_assoc,
      BitVec.xor_self, BitVec.xor_zero]

/-- Settles O22: the three commands fit, and the two parts of the region are masked as the whole is. -/
theorem splitMaskingRotatesTheKey : Obligations.SplitMaskingRotatesTheKey := by
  intro addr addr' m r len k s haddr hlen hfit
  have hfirst := exec_maskB_of_fits (addr := addr) (len := m) (s := s) (by omega) k
  have hsecond := exec_maskB_of_fits (addr := addr') (len := r) (s := s.maskDone addr m k)
    (show addr'.toNat + r.toNat ≤ s.cfg.bufSize by omega) (k.rot (m.toNat % 4))
  refine ⟨_, _, _, hfirst, hsecond, exec_maskB_of_fits hfit k, fun a => congrArg (Memory.read · a) ?_⟩
  simp only [State.respond_buf, State.withBuf_buf]
  rw [haddr, hlen, Memory.xorRegion_add]

/-- Settles O19: `MASK.W` is by definition `MASK.B` of its word's bytes, which under `little` make up its field. -/
theorem maskFormsAgree : Obligations.MaskFormsAgree := by
  refine ⟨exec_maskW, fun addr len kw => ?_⟩
  rw [keyBytes_little, encodeCommand, encodeCommand, Key.toField_ofField]

/-- Settles O23: a region of no bytes is not written and its check is that of its address; the zero key writes each
byte as it was. -/
theorem emptyMaskAndZeroKey : Obligations.EmptyMaskAndZeroKey := by
  intro addr len k s
  refine ⟨exec_maskB_of_fits (len := 0#32) (k := k), exec_of_not_fits (i := .maskB addr 0#32 k), fun hfit => ?_⟩
  exact ⟨_, exec_maskB_of_fits hfit _, rfl, s.buf.read_xorRegion_zero addr.toNat len.toNat⟩

end Machine

end Sys2Proof

/-! The statements of 42_frame_sequence.md: how long a frame is, that the three sequences build it, where
`FRAME.GEN` stops, and that `HDR` and `MASK` commute on disjoint regions. -/

namespace Sys2Proof

theorem Key.bytes_injective {k k' : Key} (h : k.bytes = k'.bytes) : k = k' := by
  obtain ⟨k0, k1, k2, k3⟩ := k
  obtain ⟨k0', k1', k2', k3'⟩ := k'
  simpa [Key.bytes] using h

namespace Machine

/-! ### The three parts of a frame (R102) -/

theorem length_frame_none (p : List Byte) (opc : Opcode) :
    (frame p opc none).length = hdrLen (BitVec.ofNat 32 p.length) + p.length := by
  simp [frame]

theorem length_frame_some (p : List Byte) (opc : Opcode) (k : Key) :
    (frame p opc (some k)).length = hdrLen (BitVec.ofNat 32 p.length) + 4 + p.length := by
  simp [frame, Nat.add_assoc]

theorem frame_readSeq_none (m : Memory) (a : Nat) (len : Len) (opc : Opcode) :
    frame (m.readSeq a len.toNat) opc none = hdrBytes len opc false ++ m.readSeq a len.toNat := by
  simp [frame]

theorem frame_readSeq_some (m : Memory) (a : Nat) (len : Len) (opc : Opcode) (k : Key) :
    frame (m.readSeq a len.toNat) opc (some k) =
      hdrBytes len opc true ++ k.bytes ++ xor4 (m.readSeq a len.toNat) k := by
  simp [frame]

/-! ### Sequences of bytes in disjoint regions of `BUF` -/

namespace Memory

variable (m : Memory)

theorem writeSeq_append (a : Nat) (bs cs : List Byte) :
    m.writeSeq a (bs ++ cs) = (m.writeSeq a bs).writeSeq (a + bs.length) cs := by
  induction bs generalizing m a with
  | nil => rfl
  | cons b bs ih =>
    have hpos : a + (bs.length + 1) = a + 1 + bs.length := by omega
    rw [List.cons_append, writeSeq, writeSeq, ih, List.length_cons, hpos]

/-- A memory that differs from `m` by one sequence holds that sequence, and every other byte as `m` holds it. -/
theorem holds_writeSeq {m m' : Memory} {a n : Nat} {bs : List Byte} (hm : m' = m.writeSeq a bs)
    (hn : bs.length = n) : m'.readSeq a n = bs ∧ ∀ b, OutsideRegion a n b → m'.read b = m.read b := by
  subst hm hn
  exact ⟨m.readSeq_writeSeq a bs, fun _ hb => m.read_writeSeq_outside bs hb⟩

theorem readSeq_writeSeq_disjoint (bs : List Byte) {a b n : Nat} (h : DisjointRegions a bs.length b n) :
    (m.writeSeq a bs).readSeq b n = m.readSeq b n :=
  readSeq_congr fun j hj => m.read_writeSeq_outside bs (by omega)

theorem readSeq_xorRegion_disjoint (k : Key) {a n b l : Nat} (h : DisjointRegions b l a n) :
    (m.xorRegion a k n).readSeq b l = m.readSeq b l :=
  readSeq_congr fun j hj => m.read_xorRegion_outside k (by omega)

end Memory

/-! ### Going on with a sequence, and stopping (R109) -/

section

variable {s t : State} {r : Response} (k : State → Response → Host.Outcome State Fault Refusal)

theorem andThenIfOk_of_ok (hr : t.response = some r) (hok : r.status = .ok) :
    andThenIfOk (.next t) k = k t.takeResponse r := by
  simp [andThenIfOk, hr, hok]

theorem andThenIfOk_of_not_ok (hr : t.response = some r) (hnot : r.status ≠ .ok) :
    andThenIfOk (.next t) k = .next t := by
  simp [andThenIfOk, hr, hnot]

/-- The `HDR` that begins a sequence, and its response taken. -/
theorem andThenIfOk_hdr {h : Addr} {len : Len} (hfit : h.toNat + hdrLen len ≤ s.cfg.bufSize) (opc : Opcode)
    (mf : Bool) :
    andThenIfOk (exec (.hdr h len opc mf) s) k =
      k (s.hdrDone h len opc mf).takeResponse ⟨.ok, BitVec.ofNat 4 (hdrLen len), 0#32⟩ := by
  rw [exec_hdr_of_fits hfit, andThenIfOk_of_ok k rfl rfl]

end

theorem hostWrite_of_fits {a : Nat} {bytes : List Byte} {s : State} (h : a + bytes.length ≤ s.cfg.bufSize) :
    hostWrite a bytes s = .next (s.withBuf (s.buf.writeSeq a bytes)) := if_pos h

/-! ### A sequence up to its `MASK.B` -/

/-- The header and the key behind it are one sequence of bytes, since the key goes to `h + n`. -/
theorem writeSeq_hdr_key (m : Memory) (a : Nat) (len : Len) (opc : Opcode) (k : Key) :
    (m.writeSeq a (hdrBytes len opc true)).writeSeq (a + hdrLen len) k.bytes =
      m.writeSeq a (hdrBytes len opc true ++ k.bytes) := by
  rw [Memory.writeSeq_append, length_hdrBytes]

theorem length_hdr_key (len : Len) (opc : Opcode) (k : Key) :
    (hdrBytes len opc true ++ k.bytes).length = hdrLen len + 4 := by
  simp

section

variable {h p : Addr} {len : Len} {s : State} (opc : Opcode)

/-- `FRAME.KEY` with header and key in `BUF` comes to its `MASK.B` with both written and nothing else changed. -/
theorem runFrameKey_eq_maskB (hfit : h.toNat + hdrLen len + 4 ≤ s.cfg.bufSize) (k : Key) :
    ∃ u : State, runFrameKey h p len opc k s = exec (.maskB p len k) u ∧ u.cfg = s.cfg ∧
      u.buf = s.buf.writeSeq h.toNat (hdrBytes len opc true ++ k.bytes) := by
  let t := (s.hdrDone h len opc true).takeResponse
  have hkey : h.toNat + hdrLen len + k.bytes.length ≤ t.cfg.bufSize := hfit
  refine ⟨t.withBuf (t.buf.writeSeq (h.toNat + hdrLen len) k.bytes), ?run, rfl, writeSeq_hdr_key _ _ len opc k⟩
  case run => rw [runFrameKey, andThenIfOk_hdr _ (by omega), toNat_ofNat_hdrLen, hostWrite_of_fits hkey]

/-- `FRAME.GEN` with its header in `BUF`, and `h + n` an address, comes to its `KEYGEN`. -/
theorem runFrameGen_eq_keygen (hlt : h.toNat + hdrLen len < 2 ^ 32) (hfit : h.toNat + hdrLen len ≤ s.cfg.bufSize) :
    runFrameGen h p len opc s =
      andThenIfOk (exec (.keygen (BitVec.ofNat 32 (h.toNat + hdrLen len))) (s.hdrDone h len opc true).takeResponse)
        fun u q => exec (.maskB p len (Key.ofField q.keyout)) u := by
  rw [runFrameGen, andThenIfOk_hdr _ hfit, toNat_ofNat_hdrLen, if_pos hlt]

theorem toNat_keyAddr (hlt : h.toNat + hdrLen len < 2 ^ 32) :
    (BitVec.ofNat 32 (h.toNat + hdrLen len)).toNat = h.toNat + hdrLen len :=
  Nat.mod_eq_of_lt hlt

/-- `FRAME.GEN` with header and key in `BUF` and a key drawn comes to its `MASK.B` with both written and nothing
else of `BUF` changed. -/
theorem runFrameGen_eq_maskB (hs : s.cfg.Wf) (hfit : h.toNat + hdrLen len + 4 ≤ s.cfg.bufSize) {k : Key}
    (hk : s.rs.answer = some k) :
    ∃ u : State, runFrameGen h p len opc s = exec (.maskB p len k) u ∧ u.cfg = s.cfg ∧
      u.buf = s.buf.writeSeq h.toNat (hdrBytes len opc true ++ k.bytes) := by
  have hlt : h.toNat + hdrLen len < 2 ^ 32 := by omega
  let t := (s.hdrDone h len opc true).takeResponse
  let addr : Addr := BitVec.ofNat 32 (h.toNat + hdrLen len)
  have haddr : addr.toNat = h.toNat + hdrLen len := toNat_keyAddr hlt
  have hkeygen : exec (.keygen addr) t = .next (t.keygenDone addr k) :=
    exec_keygen_of_answer (haddr ▸ hfit) hk
  refine ⟨(t.keygenDone addr k).takeResponse, ?run, rfl, ?buf⟩
  case run =>
    rw [runFrameGen_eq_keygen opc hlt (by omega), hkeygen, andThenIfOk_of_ok _ rfl rfl, Key.ofField_toField]
  case buf =>
    have hbuf : (t.keygenDone addr k).takeResponse.buf = t.buf.writeSeq addr.toNat k.bytes := rfl
    rw [hbuf, haddr]
    exact writeSeq_hdr_key s.buf h.toNat len opc k

/-- A `KEYGEN` that answers a fault without writing ends `FRAME.GEN`, with the header written and nothing else of
`BUF` changed. -/
theorem runFrameGen_of_keygen_raise (hlt : h.toNat + hdrLen len < 2 ^ 32)
    (hfit : h.toNat + hdrLen len ≤ s.cfg.bufSize) {u : State} {f : CommandFault}
    (hkeygen : exec (.keygen (BitVec.ofNat 32 (h.toNat + hdrLen len))) (s.hdrDone h len opc true).takeResponse =
      .next (u.raise f))
    (hbuf : u.buf = (s.hdrDone h len opc true).takeResponse.buf) :
    ∃ t, runFrameGen h p len opc s = .next t ∧ t.response = some ⟨f.status, 0#4, 0#32⟩ ∧
      t.buf.readSeq h.toNat (hdrLen len) = hdrBytes len opc true ∧
      ∀ a, OutsideRegion h.toNat (hdrLen len) a → t.buf.read a = s.buf.read a := by
  have hfault : f.status ≠ .ok := by cases f <;> decide
  have hheader : u.buf = s.buf.writeSeq h.toNat (hdrBytes len opc true) := by simpa using hbuf
  refine ⟨u.raise f, ?_, rfl, Memory.holds_writeSeq hheader (length_hdrBytes len opc true)⟩
  rw [runFrameGen_eq_keygen opc hlt hfit, hkeygen, andThenIfOk_of_not_ok _ rfl hfault]

/-! ### The `MASK.B` that ends a sequence -/

/-- With header and key written and the payload elsewhere in `BUF`, `MASK.B` masks the payload and leaves the two
before it. -/
theorem exec_maskB_after_hdr_key {u : State} {k : Key} (hcfg : u.cfg = s.cfg)
    (hbuf : u.buf = s.buf.writeSeq h.toNat (hdrBytes len opc true ++ k.bytes))
    (hfit : p.toNat + len.toNat ≤ s.cfg.bufSize)
    (hdisj : DisjointRegions h.toNat (hdrLen len + 4) p.toNat len.toNat) :
    ∃ t, exec (.maskB p len k) u = .next t ∧ t.response = some ⟨.ok, 0#4, 0#32⟩ ∧ t.cfg = s.cfg ∧
      t.buf.readSeq h.toNat (hdrLen len + 4) = hdrBytes len opc true ++ k.bytes ∧
      t.buf.readSeq p.toNat len.toNat = xor4 (s.buf.readSeq p.toNat len.toNat) k := by
  have hlength := length_hdr_key len opc k
  obtain ⟨hwritten, _⟩ := Memory.holds_writeSeq hbuf hlength
  refine ⟨_, exec_maskB_of_fits (hcfg ▸ hfit) k, rfl, hcfg, ?head, ?payload⟩
  case head => exact (u.buf.readSeq_xorRegion_disjoint k hdisj).trans hwritten
  case payload =>
    have hkept := s.buf.readSeq_writeSeq_disjoint (hdrBytes len opc true ++ k.bytes) (hlength ▸ hdisj)
    exact (u.buf.readSeq_xorRegion p.toNat k len.toNat).trans (by rw [hbuf, hkept])

end

/-! ### Two commands in either order (R110) -/

/-- A command before `j` that keeps the random answer does not show in what `j` makes of a byte outside that
command's region. -/
theorem read_exec_after_exec {i j : Instr} {s t u t' : State} {a : Nat} (hi : exec i s = .next t)
    (hj : exec j t = .next u) (hj' : exec j s = .next t') (hrs : t.rs.answer = s.rs.answer)
    (ha : OutsideRegion i.start.toNat i.regionLen a) : u.buf.read a = t'.buf.read a := by
  obtain ⟨⟨hcfg, _⟩, _⟩ := exec_commandOver hi
  exact newByteDependsOnlyOnItsOldValue j s t t' u a hcfg hrs (read_exec_outside hi ha) hj' hj

/-! ### The obligations -/

/-- Settles O49: up to its `MASK.B` the sequence writes header and drawn key; the key read back is the key drawn,
and masks the payload a second time. -/
theorem generatedFrameIsBuilt : Obligations.GeneratedFrameIsBuilt := by
  intro h p len opc k s hs hhead hpayload hdisj hk
  obtain ⟨u, hrun, hcfg, hbuf⟩ := runFrameGen_eq_maskB (p := p) opc hs hhead hk
  obtain ⟨t, hmask, hresponse, htcfg, hthead, htpayload⟩ :=
    exec_maskB_after_hdr_key opc hcfg hbuf hpayload hdisj
  refine ⟨t, hrun.trans hmask, hresponse, by rw [hthead, htpayload, frame_readSeq_some], fun k' hk' => ?unmask⟩
  case unmask =>
    have hkey : t.buf.readSeq (h.toNat + hdrLen len) 4 = k.bytes := by
      rw [Memory.readSeq_add] at hthead
      exact List.append_inj_right hthead (by simp)
    obtain rfl : k' = k := Key.bytes_injective (hk'.trans hkey)
    refine ⟨_, exec_maskB_of_fits (htcfg ▸ hpayload) k', ?_⟩
    exact (t.buf.readSeq_xorRegion p.toNat k' len.toNat).trans (by rw [htpayload, xor4_xor4_self])

/-- Settles O48: up to its `MASK.B` the sequence writes header and key, and `MASK.B` masks the payload. -/
theorem keyedFrameIsBuilt : Obligations.KeyedFrameIsBuilt := by
  intro h p len opc k s hhead hpayload hdisj
  obtain ⟨u, hrun, hcfg, hbuf⟩ := runFrameKey_eq_maskB (p := p) opc hhead k
  obtain ⟨t, hmask, hresponse, _, hthead, htpayload⟩ := exec_maskB_after_hdr_key opc hcfg hbuf hpayload hdisj
  exact ⟨t, hrun.trans hmask, hresponse, by rw [hthead, htpayload, frame_readSeq_some]⟩

/-- Settles O47: the sequence is its one `HDR`, and the payload lies outside the header. -/
theorem plainFrameIsBuilt : Obligations.PlainFrameIsBuilt := by
  intro h p len opc s hhead _ hdisj
  have hlength := length_hdrBytes len opc false
  obtain ⟨hheader, hframe⟩ := Memory.holds_writeSeq (m := s.buf) (a := h.toNat) rfl hlength
  have hkept := s.buf.readSeq_writeSeq_disjoint (hdrBytes len opc false) (hlength.symm ▸ hdisj)
  refine ⟨_, exec_hdr_of_fits hhead opc false, rfl, hheader, hframe, ?_⟩
  rw [frame_readSeq_none]
  exact congrArg₂ _ hheader hkept

/-- Settles O50: the first command whose region does not fit, or `KEYGEN` with no entropy, ends the sequence, and
`BUF` holds the one sequence of bytes written so far. -/
theorem sequenceStopsAtTheFirstFault : Obligations.SequenceStopsAtTheFirstFault := by
  intro h p len opc s hs
  refine ⟨fun hnot => ?hdr, fun hlt hfit hnot => ?keygenRegion, fun hfit hk => ?keygenEntropy,
    fun k hfit hk hnot => ?mask⟩
  case hdr =>
    have hexec := exec_of_not_fits (i := .hdr h len opc true) hnot
    show runFrameGen h p len opc s = _
    rw [runFrameGen, hexec, andThenIfOk_of_not_ok _ rfl (by decide)]
    rfl
  case keygenRegion =>
    refine runFrameGen_of_keygen_raise opc hlt hfit (exec_of_not_fits ?_) rfl
    simpa [Instr.start, Instr.regionLen, keyLen, toNat_keyAddr hlt] using hnot
  case keygenEntropy =>
    have hlt : h.toNat + hdrLen len < 2 ^ 32 := by omega
    refine runFrameGen_of_keygen_raise opc hlt (by omega) (exec_keygen_of_no_answer ?_ ?_) rfl
    · simpa [toNat_keyAddr hlt] using hfit
    · simpa using hk
  case mask =>
    obtain ⟨u, hrun, hcfg, hbuf⟩ := runFrameGen_eq_maskB (p := p) opc hs hfit hk
    have hexec := exec_of_not_fits (i := .maskB p len k) (s := u) (hcfg ▸ hnot)
    exact ⟨_, hrun.trans hexec, rfl, Memory.holds_writeSeq hbuf (length_hdr_key len opc k)⟩

/-- Settles O51: every byte lies outside the header or outside the masked region, and the command whose region it
lies outside makes no difference to it, made before the other or after. -/
theorem hdrAndMaskCommute : Obligations.HdrAndMaskCommute := by
  intro h p len m opc mf k s hhead hmask hdisj
  have hhdr := exec_hdr_of_fits hhead opc mf
  have hmaskFirst := exec_maskB_of_fits hmask k
  have hmaskAfter := exec_maskB_of_fits (s := s.hdrDone h len opc mf) hmask k
  have hhdrAfter := exec_hdr_of_fits (s := s.maskDone p m k) hhead opc mf
  refine ⟨_, _, _, _, hhdr, hmaskAfter, hmaskFirst, hhdrAfter, fun a => ?_⟩
  have hout : OutsideRegion h.toNat (hdrLen len) a ∨ OutsideRegion p.toNat m.toNat a := by omega
  rcases hout with ha | ha
  · exact (read_exec_after_exec hhdr hmaskAfter hmaskFirst rfl ha).trans (read_exec_outside hhdrAfter ha).symm
  · exact (read_exec_outside hmaskAfter ha).trans (read_exec_after_exec hmaskFirst hhdrAfter hhdr rfl ha).symm

/-- Settles O46: the lengths of a frame's parts, added. -/
theorem frameLength : Obligations.FrameLength :=
  fun p opc k _ => ⟨length_frame_none p opc, length_frame_some p opc k⟩

end Machine

end Sys2Proof

/-! The statements of 60_exceptions.md: why each command answers as it does, what a fault leaves as it was, and what
stops the machine. -/

namespace Sys2Proof.Machine

/-! ### The three ways a command is answered (R113, R114, R121) -/

/-- A command faults because its region does not fit, or because it is a `KEYGEN` that finds no entropy; any other
can do its work, and is answered `OK`. -/
theorem exec_answer_cases {i : Instr} {s t : State} (h : exec i s = .next t) :
    (s.cfg.bufSize < i.start.toNat + i.regionLen ∧ t = s.raise .invalidArgument) ∨
    (i.start.toNat + i.regionLen ≤ s.cfg.bufSize ∧ (∃ addr, i = .keygen addr) ∧ s.rs.answer = none ∧
      t = s.askRandom.raise .randomSourceUnavailable) ∨
    (s.CanDo i ∧ ∃ n k, t.response = some ⟨.ok, n, k⟩) := by
  rcases exec_cases h with hfault | ⟨hfit, hdone⟩
  · exact .inl hfault
  · rcases hdone with ⟨_, _, _, _, rfl, rfl⟩ | ⟨addr, rfl, hnone, rfl⟩ | ⟨_, k, rfl, hk, rfl⟩ |
      ⟨_, _, _, rfl, rfl⟩ | ⟨_, _, _, rfl, rfl⟩
    · exact .inr (.inr ⟨⟨hfit, nofun⟩, _, _, rfl⟩)
    · exact .inr (.inl ⟨hfit, ⟨addr, rfl⟩, hnone, rfl⟩)
    · exact .inr (.inr ⟨⟨hfit, fun _ _ => by simp [hk]⟩, _, _, rfl⟩)
    · exact .inr (.inr ⟨⟨hfit, nofun⟩, _, _, rfl⟩)
    · exact .inr (.inr ⟨⟨hfit, nofun⟩, _, _, rfl⟩)

theorem exec_of_canDo {i : Instr} {s : State} (hdo : s.CanDo i) :
    ∃ t n k, exec i s = .next t ∧ t.response = some ⟨.ok, n, k⟩ := by
  obtain ⟨hfit, hanswer⟩ := hdo
  obtain ⟨t, ht⟩ := exec_next i s
  rcases exec_answer_cases ht with ⟨hnot, _⟩ | ⟨_, ⟨addr, rfl⟩, hnone, _⟩ | ⟨_, n, k, hr⟩
  · exact absurd hfit (Nat.not_le.mpr hnot)
  · exact absurd hnone (hanswer addr rfl)
  · exact ⟨t, n, k, ht, hr⟩

/-- A command reads neither port, and a fault writes nothing but the ports (R120). -/
theorem exec_raise (j : Instr) (s : State) (f : CommandFault) : exec j (s.raise f) = exec j s := by
  cases j <;> rfl

/-! ### What stops the machine (R112) -/

theorem step_of_idle {s : State} (hc : s.command = none) (hr : s.response = none) (hm : s.host = []) :
    step s = .next s := by
  simp [step, hostTurn, hc, hr, hm]

/-- Every step has a next state, but for a host write that ends above `BUF_SIZE` (20_memory.md R32). -/
theorem step_next_or_fault (s : State) :
    (∃ t, step s = .next t) ∨
    step s = .fault .hostWriteOutsideBuf ∧ s.command = none ∧
      ∃ a bytes ms, s.host = .write a bytes :: ms ∧ s.cfg.bufSize < a + bytes.length := by
  cases hc : s.command with
  | some cw =>
    rw [step_of_command hc]
    exact .inl (exec_next (decodeWord cw) s)
  | none =>
    cases hr : s.response with
    | some r => exact .inl ⟨_, step_of_response hc hr⟩
    | none =>
      cases hm : s.host with
      | nil => exact .inl ⟨_, step_of_idle hc hr hm⟩
      | cons m ms =>
        rw [step_of_hostMove hc hr hm]
        cases m with
        | write a bytes =>
          rcases hostWrite_cases a bytes { s with host := ms } with ⟨_, hwrite⟩ | ⟨hnot, hwrite⟩
          · exact .inl ⟨_, hwrite⟩
          · exact .inr ⟨hwrite, rfl, a, bytes, ms, rfl, hnot⟩
        | issue cw => exact .inl ⟨_, rfl⟩
        | reset => exact .inl ⟨_, rfl⟩

/-! ### The obligations -/

/-- Settles O25: the three ways to be answered have three statuses, and their causes exclude each other. -/
theorem everyCommandAnswersOnce : Obligations.EveryCommandAnswersOnce := by
  intro i s
  obtain ⟨t, ht⟩ := exec_next i s
  obtain ⟨hover, _⟩ := exec_commandOver ht
  rcases exec_answer_cases ht with ⟨hnot, rfl⟩ | ⟨hfit, hkeygen, hnone, rfl⟩ | ⟨⟨hfit, hanswer⟩, n, k, hr⟩
  · have hunfit := Nat.not_le.mpr hnot
    exact ⟨_, _, ht, rfl, hover, iff_of_true rfl hnot, iff_of_false nofun fun ⟨hfit, _⟩ => hunfit hfit,
      iff_of_false nofun fun ⟨hfit, _⟩ => hunfit hfit⟩
  · refine ⟨_, _, ht, rfl, hover, iff_of_false nofun (Nat.not_lt.mpr hfit),
      iff_of_true rfl ⟨hfit, hkeygen, hnone⟩, iff_of_false nofun fun ⟨_, hanswer⟩ => ?_⟩
    obtain ⟨addr, haddr⟩ := hkeygen
    exact hanswer addr haddr hnone
  · exact ⟨_, _, ht, hr, hover, iff_of_false nofun (Nat.not_lt.mpr hfit),
      iff_of_false nofun fun ⟨_, ⟨addr, haddr⟩, hnone⟩ => hanswer addr haddr hnone,
      iff_of_true rfl ⟨hfit, hanswer⟩⟩

/-- Settles O26: either fault raises a response of zeros over the old `BUF`, and only the one for want of entropy
has asked the source. -/
theorem faultLeavesBufUnchanged : Obligations.FaultLeavesBufUnchanged := by
  intro i s t r ht hr hfault
  obtain ⟨hover, _⟩ := exec_commandOver ht
  rcases exec_answer_cases ht with ⟨_, rfl⟩ | ⟨_, _, _, rfl⟩ | ⟨_, n, k, hok⟩
  · obtain rfl : ⟨.invalidArgument, 0#4, 0#32⟩ = r := Option.some.inj hr
    exact ⟨rfl, rfl, rfl, hover, fun _ => rfl⟩
  · obtain rfl : ⟨.randomSourceUnavailable, 0#4, 0#32⟩ = r := Option.some.inj hr
    exact ⟨rfl, rfl, rfl, hover, nofun⟩
  · obtain rfl : ⟨.ok, n, k⟩ = r := Option.some.inj (hok.symm.trans hr)
    exact absurd rfl hfault

/-- Settles O27: what a fault raised is only in the ports, which the next command does not read. -/
theorem faultIsNotSticky : Obligations.FaultIsNotSticky := by
  intro i j s t r ht hr
  rcases exec_answer_cases ht with ⟨_, rfl⟩ | ⟨_, _, _, rfl⟩ | ⟨_, n, k, hok⟩
  · obtain rfl : ⟨.invalidArgument, 0#4, 0#32⟩ = r := Option.some.inj hr
    exact ⟨fun _ => exec_raise j s _, nofun⟩
  · obtain rfl : ⟨.randomSourceUnavailable, 0#4, 0#32⟩ = r := Option.some.inj hr
    exact ⟨nofun, fun _ => exec_raise j s.askRandom _⟩
  · obtain rfl : ⟨.ok, n, k⟩ = r := Option.some.inj (hok.symm.trans hr)
    exact ⟨nofun, nofun⟩

/-- Settles O31: the one new response is `OK`, and the responses received are those from before. -/
theorem runWithoutFaultStaysSo : Obligations.RunWithoutFaultStaysSo := by
  intro i s hdo ⟨_, hreceivedOk⟩
  obtain ⟨t, n, k, ht, hr⟩ := exec_of_canDo hdo
  obtain ⟨⟨_, _, hreceived, _⟩, _⟩ := exec_commandOver ht
  refine ⟨t, ht, fun r hr' => ?response, hreceived ▸ hreceivedOk⟩
  case response =>
    obtain rfl : ⟨.ok, n, k⟩ = r := Option.some.inj (hr.symm.trans hr')
    rfl

/-- Settles O42: of all that a step can do, only the host's write can stop the machine, and by a fault. -/
theorem onlyAHostWriteOutsideBufStops : Obligations.OnlyAHostWriteOutsideBufStops := by
  intro s
  rcases step_next_or_fault s with ⟨t, hnext⟩ | ⟨hfault, hcause⟩
  · rw [hnext]
    exact ⟨nofun, nofun⟩
  · rw [hfault]
    exact ⟨fun _ _ => hcause, nofun⟩

end Sys2Proof.Machine

/-! The statements of 70_reset_and_hazards.md: the block waits when nothing moves, and what a reset between commands
leaves. -/

namespace Sys2Proof.Machine

/-- A reset between commands is one step, to the state with its ports and `BUF` cleared (R129). -/
theorem step_of_resetMove {s : State} {ms : List HostMove} (hc : s.command = none) (hr : s.response = none)
    (hm : s.host = .reset :: ms) : step s = .next (State.pulseReset { s with host := ms }) :=
  step_of_hostMove hc hr hm

/-! ### The obligations -/

/-- Settles O39: with both ports idle it is the host's turn, and a host with no move leaves the state alone. -/
theorem idleBlockWaits : Obligations.IdleBlockWaits := fun _ => step_of_idle

/-- Settles O40: the step is the host's reset, which clears the ports and forgets `BUF` and writes nothing else. -/
theorem resetBetweenCommands : Obligations.ResetBetweenCommands := by
  intro s ms hc hr hm
  exact ⟨_, step_of_resetMove hc hr hm, State.pulseReset_command _, State.pulseReset_response _,
    Memory.known_forget s.buf, State.pulseReset_cfg _, State.pulseReset_host _, State.pulseReset_received _⟩

end Sys2Proof.Machine
